-- ==== Sys2Proof/Word.lean ====
section
/-! DEFINITION. Word.lean: the units of data of the bit-field marshaller: bytes, bit-vectors and names
(spec/00_scope.md R5, spec/10_state.md R10 and R21, spec/92_eei_decisions.md D5 and D32). -/

namespace Sys2Proof

/-- A byte: 8 bits, bit 0 least significant (R5, D32). -/
abbrev Byte := BitVec 8

/-- A BitVector (R10): an ordered sequence of bits, index 0 the least significant. Its length is part of
its value, and every element is 0 or 1 by the type. -/
abbrev Bits := List Bool

/-- A name tag (R21, R54, D5): compared for equality and used for nothing else. The tag's width `NAME_W`
is a parameter (`Params.nameW`) and is checked where a record is accepted (`Instr.wf`). -/
abbrev Name := Nat

/-- A value that a channel of `w` bits can carry; `none` is a channel that carries any value. -/
def fits (w : Option Nat) (v : Nat) : Bool :=
  match w with
  | none => true
  | some k => decide (v < 2 ^ k)

/-- A signed value that a two's-complement channel of `w` bits can carry (R54). -/
def fitsSigned (w : Option Nat) (v : Int) : Bool :=
  match w with
  | none => true
  | some k => decide (-(2 ^ k : Int) ≤ 2 * v ∧ 2 * v < (2 ^ k : Int))

end Sys2Proof
end

