-- ==== Sys2Proof/Config.lean ====
section
/-! DEFINITION. Config.lean: the parameters every built block fixes (spec/00_scope.md R4) and the free values,
which the spec leaves unspecified (spec/30_encoding.md R56, spec/93_implementation_defined.md U6). -/

namespace Sys2Proof

/-- The parameters of the block (R4). Each is OPEN in the spec, so the model takes them as an argument: the
record is a field of the state that no step changes (assumption log 1). `none` stands for "unbounded", or for a
channel whose width the model does not limit. -/
structure Params where
  /-- `NAME_W`: the width of a name tag (D5). -/
  nameW : Option Nat
  /-- `MAX_REGS`: how many register contexts the bank can hold (D6). -/
  maxRegs : Option Nat
  /-- `MAX_SEGS`: how many segments one register context can hold (D6). -/
  maxSegs : Option Nat
  /-- `MAX_BITS`: one more than the largest bit position, and the longest bit-vector operand (D6). -/
  maxBits : Option Nat
  /-- `MAX_BYTES`: the longest byte-sequence operand and the longest transport payload (D6). -/
  maxBytes : Option Nat
  /-- `DEV_W`: the width of `dev_addr` (D7). -/
  devW : Option Nat
  /-- `RA_W`: the width of a register address (D7). -/
  raW : Option Nat
  /-- `ELEM_W`: the width of one element of a bit-vector operand on the command channel (D10). -/
  elemW : Option Nat
  /-- `VAL_W`: the width of `ival` and of the signed result (D21, D27). -/
  valW : Option Nat
  /-- `TSTAT_W`: the width of the transport's status word (D15). -/
  tstatW : Option Nat
deriving DecidableEq, Repr

/-- `a ≥ 1`, where the parameter is bounded at all. -/
def Params.positive (a : Option Nat) : Bool :=
  match a with
  | none => true
  | some k => decide (1 ≤ k)

/-- `lo ≤ hi` for two capacities, `none` being the largest. -/
def Params.atMost (lo hi : Option Nat) : Bool :=
  match lo, hi with
  | _, none => true
  | none, some _ => false
  | some a, some b => decide (a ≤ b)

/-- The column "constraint" of R4: what a legal choice of the parameters meets. -/
def Params.wf (p : Params) : Bool :=
  Params.positive p.nameW && Params.positive p.maxRegs && Params.positive p.maxSegs &&
  Params.positive p.maxBits && Params.positive p.devW && Params.positive p.raW &&
  Params.positive p.elemW && Params.positive p.tstatW &&
  Params.atMost (p.maxBits.map fun b => (b + 7) / 8) p.maxBytes &&
  Params.atMost (p.maxBits.map fun b => b + 1) p.valW

/-- Every parameter unbounded: "then the model is exactly the source's semantics" (spec/00_scope.md, section 4).
DESIGN CHOICE (assumption log 1): the block that `State.reset` describes. -/
def Params.unbounded : Params :=
  { nameW := none, maxRegs := none, maxSegs := none, maxBits := none, maxBytes := none,
    devW := none, raW := none, elemW := none, valW := none, tstatW := none }

/-! The free values (R56, U6): a response field that the command's rule does not name is unspecified. Each is an
uninterpreted constant applied to the response's number, so no proof can see what it is (assumption log 6). -/

opaque Config.freeUval : Nat → Nat
opaque Config.freeSval : Nat → Int
opaque Config.freeN0 : Nat → Nat
opaque Config.freeN1 : Nat → Nat
opaque Config.freeRaddr : Nat → Nat
opaque Config.freeMode : Nat → BitVec 2
opaque Config.freeVec : Nat → List Bool
opaque Config.freeBytes : Nat → List (BitVec 8)

end Sys2Proof
end

