-- ==== Sys2Proof/Syntax.lean ====
section
/-! DEFINITION. Syntax.lean: the command record, the nine formats, the 17 opcodes and the 17 commands
(spec/30_encoding.md R50 to R52, R55; spec/opcode_table.json). -/

namespace Sys2Proof

/-- An AccessMode (R14): a set of capabilities drawn from {Readable, Writable}. All four sets are legal. -/
structure AccessMode where
  readable : Bool
  writable : Bool
deriving DecidableEq, Repr

/-- The command record the host gives the block on the command channel (R50). The record's `vlen` and `blen` are
the lengths of `vec` and `bytes` (assumption log 4), so that `vec` always holds `vlen` elements. -/
structure CommandRecord where
  /-- the opcode (R52) -/
  op : BitVec 8
  /-- a register name -/
  reg : Name
  /-- a segment name -/
  seg : Name
  /-- first unsigned operand: a width, a count, or `lsb` -/
  n0 : Nat
  /-- second unsigned operand: `msb` -/
  n1 : Nat
  /-- the signed operand: the `value` of TOBITS (R54) -/
  ival : Int
  /-- a register address -/
  raddr : Nat
  /-- an AccessMode in its 2-bit encoding (R55) -/
  mode : BitVec 2
  /-- the elements of a bit-vector operand, index 0 first, each an `ELEM_W`-bit unsigned number (R61) -/
  vec : List Nat
  /-- the bytes of a byte-sequence operand, `bytes[0]` first -/
  bytes : List Byte
deriving DecidableEq, Repr

/-- The nine formats (R51). -/
inductive Format where
  | v | n | b | r | ra | rs | rsp | rsb | rsy
deriving DecidableEq, Repr

/-- The 17 assigned opcodes (R52), in the order of the table. -/
inductive Opcode where
  | tobits | toint | totc | nbytes | padbytes
  | regadd | segadd | regget | segget | totbits | totbytes
  | setbits | segupd | segint | segtc
  | read | write
deriving DecidableEq, Repr

/-- The commands: one constructor per row of spec/opcode_table.json, with the operands its format names (R51). -/
inductive Instr where
  /-- TOBITS, format V (R70): `ival` = value, `n0` = width. -/
  | tobits (value : Int) (width : Nat)
  /-- TOINT, format B (R71). -/
  | toint (vec : List Nat)
  /-- TOTC, format B (R72). -/
  | totc (vec : List Nat)
  /-- NBYTES, format N (R73). -/
  | nbytes (n : Nat)
  /-- PADBYTES, format B (R74). -/
  | padbytes (vec : List Nat)
  /-- REGADD, format RA (R80). -/
  | regadd (reg : Name) (raddr : Nat) (mode : AccessMode)
  /-- SEGADD, format RSP (R81): `n0` = lsb, `n1` = msb. -/
  | segadd (reg seg : Name) (lsb msb : Nat)
  /-- REGGET, format R (R82). -/
  | regget (reg : Name)
  /-- SEGGET, format RS (R83). -/
  | segget (reg seg : Name)
  /-- TOTBITS, format R (R84). -/
  | totbits (reg : Name)
  /-- TOTBYTES, format R (R85). -/
  | totbytes (reg : Name)
  /-- SETBITS, format RSB (R90). -/
  | setbits (reg seg : Name) (vec : List Nat)
  /-- SEGUPD, format RSY (R91). -/
  | segupd (reg seg : Name) (bytes : List Byte)
  /-- SEGINT, format RS (R92). -/
  | segint (reg seg : Name)
  /-- SEGTC, format RS (R93). -/
  | segtc (reg seg : Name)
  /-- READ, format R (R100). -/
  | read (reg : Name)
  /-- WRITE, format R (R101). -/
  | write (reg : Name)
deriving DecidableEq, Repr

/-- The opcode a command is a command of. -/
def Instr.opcode : Instr → Opcode
  | .tobits _ _ => .tobits
  | .toint _ => .toint
  | .totc _ => .totc
  | .nbytes _ => .nbytes
  | .padbytes _ => .padbytes
  | .regadd _ _ _ => .regadd
  | .segadd _ _ _ _ => .segadd
  | .regget _ => .regget
  | .segget _ _ => .segget
  | .totbits _ => .totbits
  | .totbytes _ => .totbytes
  | .setbits _ _ _ => .setbits
  | .segupd _ _ _ => .segupd
  | .segint _ _ => .segint
  | .segtc _ _ => .segtc
  | .read _ => .read
  | .write _ => .write

end Sys2Proof
end

