-- ==== Sys2Proof/WellFormed.lean ====
section
/-! DEFINITION. WellFormed.lean: which operands the command channel of a given block can carry
(spec/00_scope.md R4; spec/30_encoding.md R50, R54, R61). -/

namespace Sys2Proof

/-- Every element of a bit-vector operand is an `ELEM_W`-bit number (R61). -/
def elemsFit (p : Params) (vec : List Nat) : Bool :=
  vec.all (fits p.elemW)

/-- A command whose operands fit the widths of the command channel (R50): names of `NAME_W` bits, a register
address of `RA_W` bits, elements of `ELEM_W` bits, `ival` of `VAL_W` bits. The unsigned operands `n0`, `n1`,
`vlen`, `blen` have no width of their own (R54); `mode` and the bytes have theirs by type. -/
def Instr.wf (p : Params) : Instr → Bool
  | .tobits value _ => fitsSigned p.valW value
  | .toint vec => elemsFit p vec
  | .totc vec => elemsFit p vec
  | .nbytes _ => true
  | .padbytes vec => elemsFit p vec
  | .regadd reg raddr _ => fits p.nameW reg && fits p.raW raddr
  | .segadd reg seg _ _ => fits p.nameW reg && fits p.nameW seg
  | .regget reg => fits p.nameW reg
  | .segget reg seg => fits p.nameW reg && fits p.nameW seg
  | .totbits reg => fits p.nameW reg
  | .totbytes reg => fits p.nameW reg
  | .setbits reg seg vec => fits p.nameW reg && fits p.nameW seg && elemsFit p vec
  | .segupd reg seg _ => fits p.nameW reg && fits p.nameW seg
  | .segint reg seg => fits p.nameW reg && fits p.nameW seg
  | .segtc reg seg => fits p.nameW reg && fits p.nameW seg
  | .read reg => fits p.nameW reg
  | .write reg => fits p.nameW reg

end Sys2Proof
end

