-- ==== Sys2Proof/Decode.lean ====
section
/-! DEFINITION. Decode.lean: the opcode map and the formats (spec/30_encoding.md R51, R52, R53, R55, R59), the
decoder, total on any record, and the encoder. -/

namespace Sys2Proof

/-- The opcode map, column `op` (R52): bits 7..4 the family, bits 3..0 the command within it. -/
def Opcode.code : Opcode → BitVec 8
  | .tobits => 0x01#8
  | .toint => 0x02#8
  | .totc => 0x03#8
  | .nbytes => 0x04#8
  | .padbytes => 0x05#8
  | .regadd => 0x10#8
  | .segadd => 0x11#8
  | .regget => 0x12#8
  | .segget => 0x13#8
  | .totbits => 0x14#8
  | .totbytes => 0x15#8
  | .setbits => 0x20#8
  | .segupd => 0x21#8
  | .segint => 0x22#8
  | .segtc => 0x23#8
  | .read => 0x30#8
  | .write => 0x31#8

/-- The rows of the opcode map, in the order of R52. -/
def Opcode.all : List Opcode :=
  [.tobits, .toint, .totc, .nbytes, .padbytes, .regadd, .segadd, .regget, .segget, .totbits, .totbytes,
   .setbits, .segupd, .segint, .segtc, .read, .write]

/-- The opcode an `op` byte stands for: all eight bits are significant (R52), and every value not in the table is
reserved (R53). -/
def Opcode.ofCode (b : BitVec 8) : Option Opcode :=
  Opcode.all.find? fun o => decide (o.code = b)

/-- The format of each command (R51, R52). -/
def Opcode.format : Opcode → Format
  | .tobits => .v
  | .toint => .b
  | .totc => .b
  | .nbytes => .n
  | .padbytes => .b
  | .regadd => .ra
  | .segadd => .rsp
  | .regget => .r
  | .segget => .rs
  | .totbits => .r
  | .totbytes => .r
  | .setbits => .rsb
  | .segupd => .rsy
  | .segint => .rs
  | .segtc => .rs
  | .read => .r
  | .write => .r

/-- AccessMode from its 2-bit encoding (R55): `mode[0]` Readable, `mode[1]` Writable. -/
def AccessMode.ofBits (b : BitVec 2) : AccessMode :=
  { readable := b.getLsbD 0, writable := b.getLsbD 1 }

/-- AccessMode to its 2-bit encoding (R55). -/
def AccessMode.toBits : AccessMode → BitVec 2
  | { readable := false, writable := false } => 0b00#2
  | { readable := true, writable := false } => 0b01#2
  | { readable := false, writable := true } => 0b10#2
  | { readable := true, writable := true } => 0b11#2

/-- The record with a given `op` and every other field zero or empty. -/
def CommandRecord.blank (op : BitVec 8) : CommandRecord :=
  { op := op, reg := 0, seg := 0, n0 := 0, n1 := 0, ival := 0, raddr := 0, mode := 0#2, vec := [], bytes := [] }

/-- The record with only the fields that a format names (R51), the others zero or empty. -/
def CommandRecord.restrict (r : CommandRecord) (f : Format) : CommandRecord :=
  match f with
  | .v => { CommandRecord.blank r.op with ival := r.ival, n0 := r.n0 }
  | .n => { CommandRecord.blank r.op with n0 := r.n0 }
  | .b => { CommandRecord.blank r.op with vec := r.vec }
  | .r => { CommandRecord.blank r.op with reg := r.reg }
  | .ra => { CommandRecord.blank r.op with reg := r.reg, raddr := r.raddr, mode := r.mode }
  | .rs => { CommandRecord.blank r.op with reg := r.reg, seg := r.seg }
  | .rsp => { CommandRecord.blank r.op with reg := r.reg, seg := r.seg, n0 := r.n0, n1 := r.n1 }
  | .rsb => { CommandRecord.blank r.op with reg := r.reg, seg := r.seg, vec := r.vec }
  | .rsy => { CommandRecord.blank r.op with reg := r.reg, seg := r.seg, bytes := r.bytes }

/-- Why a record decodes to no command: its `op` is reserved (R53). -/
inductive DecodeError where
  | illegalCommand (op : BitVec 8)
deriving DecidableEq, Repr

/-- The command of a record whose `op` is that of `o`: each format reads the fields it names and no other
(R51, R59). -/
def CommandRecord.toInstr (r : CommandRecord) : Opcode → Instr
  | .tobits => .tobits r.ival r.n0
  | .toint => .toint r.vec
  | .totc => .totc r.vec
  | .nbytes => .nbytes r.n0
  | .padbytes => .padbytes r.vec
  | .regadd => .regadd r.reg r.raddr (AccessMode.ofBits r.mode)
  | .segadd => .segadd r.reg r.seg r.n0 r.n1
  | .regget => .regget r.reg
  | .segget => .segget r.reg r.seg
  | .totbits => .totbits r.reg
  | .totbytes => .totbytes r.reg
  | .setbits => .setbits r.reg r.seg r.vec
  | .segupd => .segupd r.reg r.seg r.bytes
  | .segint => .segint r.reg r.seg
  | .segtc => .segtc r.reg r.seg
  | .read => .read r.reg
  | .write => .write r.reg

/-- The decoder (R51 to R53): total on any record; a reserved `op` is rejected as IllegalCommand. -/
def decode (r : CommandRecord) : Except DecodeError Instr :=
  match Opcode.ofCode r.op with
  | none => .error (.illegalCommand r.op)
  | some o => .ok (r.toInstr o)

/-- The encoder: the record of a command, the fields its format does not name zero or empty (R51, R52, R55). -/
def encode : Instr → CommandRecord
  | .tobits value width => { CommandRecord.blank 0x01#8 with ival := value, n0 := width }
  | .toint vec => { CommandRecord.blank 0x02#8 with vec := vec }
  | .totc vec => { CommandRecord.blank 0x03#8 with vec := vec }
  | .nbytes n => { CommandRecord.blank 0x04#8 with n0 := n }
  | .padbytes vec => { CommandRecord.blank 0x05#8 with vec := vec }
  | .regadd reg raddr mode => { CommandRecord.blank 0x10#8 with reg := reg, raddr := raddr, mode := mode.toBits }
  | .segadd reg seg lsb msb => { CommandRecord.blank 0x11#8 with reg := reg, seg := seg, n0 := lsb, n1 := msb }
  | .regget reg => { CommandRecord.blank 0x12#8 with reg := reg }
  | .segget reg seg => { CommandRecord.blank 0x13#8 with reg := reg, seg := seg }
  | .totbits reg => { CommandRecord.blank 0x14#8 with reg := reg }
  | .totbytes reg => { CommandRecord.blank 0x15#8 with reg := reg }
  | .setbits reg seg vec => { CommandRecord.blank 0x20#8 with reg := reg, seg := seg, vec := vec }
  | .segupd reg seg bytes => { CommandRecord.blank 0x21#8 with reg := reg, seg := seg, bytes := bytes }
  | .segint reg seg => { CommandRecord.blank 0x22#8 with reg := reg, seg := seg }
  | .segtc reg seg => { CommandRecord.blank 0x23#8 with reg := reg, seg := seg }
  | .read reg => { CommandRecord.blank 0x30#8 with reg := reg }
  | .write reg => { CommandRecord.blank 0x31#8 with reg := reg }

/-- The record that a word of spec/opcode_table.json stands for: its `op` is bits 7..0 of the word and every other
field is zero or empty. The table gives a command 8 bits, and the spec gives the other fields no bit positions
(R51, `FRAMING`; assumption log 3). -/
def tableRecord (nbits w : Nat) : CommandRecord :=
  CommandRecord.blank (BitVec.ofNat 8 (w % 2 ^ nbits))

/-- The command the decoder reads from a word of the opcode table; `none` where `op` is reserved. -/
def decodeTableWord (nbits w : Nat) : Option Instr :=
  match decode (tableRecord nbits w) with
  | .ok i => some i
  | .error _ => none

end Sys2Proof
end

