-- ==== Sys2Proof/Machine/State.lean ====
section
/-! DEFINITION. Machine/State.lean: the state of the block, as plain data (spec/10_state.md R11 to R27;
spec/20_memory.md R46; spec/30_encoding.md R56 to R58), its fault and refusal reasons, and the state after reset. -/

namespace Sys2Proof.Machine

/-- A Segment (R11): a named window `[lsb..msb]` of the register's bits with its own stored bit-vector; local
index `i` of `bits` is global bit `lsb + i` (R12). -/
structure Segment where
  name : Name
  lsb : Nat
  msb : Nat
  bits : Bits
deriving DecidableEq, Repr

/-- A register context (R15). Its segments stand in slot order (R19). -/
structure RegCtx where
  name : Name
  raddr : Nat
  mode : AccessMode
  segs : List Segment
deriving DecidableEq, Repr

/-- The status of a response (R57): `OK` or an error kind. -/
inductive Status where
  | ok
  | configurationError
  | lengthMismatch
  | invalidBitValue
  | rangeError
  | notFound
  | duplicateName
  | accessDenied
  | insufficientData
  | continuityError
  | overlapError
  | transportError
  | capacityExceeded
  | emptyRegister
  | illegalCommand
deriving DecidableEq, Repr

/-- `which` of a NotFound or DuplicateName detail (R58). -/
inductive NameKind where
  /-- 0 = register -/
  | register
  /-- 1 = segment -/
  | segment
deriving DecidableEq, Repr

/-- `which` of a CapacityExceeded detail (R58). -/
inductive CapacityKind where
  /-- 0 = `MAX_REGS` -/
  | regs
  /-- 1 = `MAX_SEGS` -/
  | segs
  /-- 2 = `MAX_BITS` -/
  | bits
  /-- 3 = `MAX_BYTES` -/
  | bytes
deriving DecidableEq, Repr

/-- The error detail of a response (R58). -/
inductive Detail where
  /-- `OK`, RangeError, AccessDenied, EmptyRegister: nothing. -/
  | empty
  /-- InvalidBitValue: the lowest offending index. -/
  | index (i : Nat)
  /-- ContinuityError: the gap indices, ascending. -/
  | gaps (bits : List Nat)
  /-- OverlapError: (bit, owners in slot order), ascending by bit. -/
  | conflicts (l : List (Nat × List Name))
  /-- NotFound, DuplicateName: `which` and `name`. -/
  | named (which : NameKind) (name : Name)
  /-- ConfigurationError: `lsb` and `msb` given. LengthMismatch: the segment's width and the `vlen` given. -/
  | pair (a b : Nat)
  /-- InsufficientData: the first uncovered segment in slot order, bytes needed, bytes given. -/
  | insufficient (name : Name) (a b : Nat)
  /-- TransportError: the transport's status word. -/
  | tstatus (t : Nat)
  /-- CapacityExceeded: which limit. -/
  | capacity (which : CapacityKind)
  /-- IllegalCommand: the `op` given. -/
  | opcode (op : BitVec 8)
deriving DecidableEq, Repr

/-- The result fields of a response (R56). `vlen` and `blen` are the lengths of `vec` and `bytes`. -/
structure Results where
  uval : Nat
  sval : Int
  n0 : Nat
  n1 : Nat
  raddr : Nat
  mode : AccessMode
  vec : Bits
  bytes : List Byte
deriving DecidableEq, Repr

/-- The response record (R56). -/
structure Response where
  status : Status
  results : Results
  detail : Detail
deriving DecidableEq, Repr

/-- A record of the transport request channel (R46): its `kind` (`TransportRequest.kind`) with the fields used for that
kind. `wlen` is the length of the bytes (log 4). -/
inductive TransportRequest where
  /-- `TRead(dev, ra, count)`: one call of `read_bytes` (R31). -/
  | readBytes (dev ra count : Nat)
  /-- `TWrite(dev, ra, bytes)`: one call of `write_bytes` (R32). -/
  | writeBytes (dev ra : Nat) (bytes : List Byte)
deriving DecidableEq, Repr

/-- A record of the transport response channel (R46). Its status word is the low `TSTAT_W` bits of `tstatus`
(`TransportAnswer.status`, log 19); the bytes mean something only when the call was a read and succeeded, and are of any
length (R31). -/
structure TransportAnswer where
  tstatus : Nat
  rbytes : List Byte
deriving DecidableEq, Repr

/-- The READ or WRITE in flight: its register and its one transport request (R25, R38). -/
structure Transfer where
  reg : Name
  request : TransportRequest
deriving DecidableEq, Repr

/-- Where the block stands in its one-command-at-a-time discipline (R25, R44, R46, R166). -/
inductive Phase where
  /-- No command in flight: ready for a command. -/
  | idle
  /-- A transfer whose request record is offered and not yet taken by the transport. -/
  | requesting (t : Transfer)
  /-- A transfer whose request was taken: the block waits for the answer, without limit (R44). -/
  | waiting (t : Transfer)
  /-- A finished command whose response record is offered and not yet taken by the host. -/
  | responding (r : Response)
deriving DecidableEq, Repr

/-- The state of the block and of the channels at its border. INVENTORY.md lists every field with its rule. -/
structure State where
  /-- The parameters of R4: configuration, changed by no step (log 1). -/
  params : Params
  /-- The strap `dev_addr` (R18): changed by no step. -/
  devAddr : Nat
  /-- The bank: the register contexts in slot order (R17, R19). -/
  bank : List RegCtx
  /-- The command in flight, and the response not yet taken (R25, R166). -/
  phase : Phase
  /-- Input: the reset input, active high (R161). -/
  rst : Bool
  /-- Input: the records the host has put on the command channel and the block has not accepted (R50). -/
  commands : List CommandRecord
  /-- Input: the host's `ready` on the response channel (R46, R166). -/
  respReady : Bool
  /-- History: the response records the host has taken, oldest first (R39, R56). -/
  responses : List Response
  /-- Input: the transport's `ready` on the request channel (R46). -/
  treqReady : Bool
  /-- History: the request records the transport has taken, oldest first (R38, R39). -/
  calls : List TransportRequest
  /-- Input: the transport's answers that the block has not taken, oldest first (R43, R46). -/
  answers : List TransportAnswer
  /-- How many of the next answers belong to requests that a reset abandoned (R163). -/
  stale : Nat
  /-- How many responses have been made: the argument of the free values (R56, U6). -/
  freeCount : Nat
deriving DecidableEq, Repr

/-- Why the machine stops with a fault. -/
inductive Fault where
  /-- A READ's answer arrives and its register is not in the bank. Raised by taking the answer of a transfer in
  flight. Safe: a register is never removed while a command is in flight (R26), so no run reaches it. -/
  | transferRegisterMissing
deriving DecidableEq, Repr

/-- Why the model gives no meaning. -/
inductive Refusal where
  /-- An instruction without a meaning. Raised by exec's refused arms; there is none. Safe. -/
  | notModelled (mnemonic : String)
  /-- The record's operands do not fit the widths of this block's command channel (`Instr.wf`), so no such record
  can be on it (R50). Raised by step, before exec. Safe: the hardware has no such record. -/
  | recordDoesNotFit
deriving DecidableEq, Repr

/-- The outcome of one step. -/
abbrev Result := Host.Outcome State Fault Refusal

/-- The state right after reset of a block with parameters `p` and the strap at `dev` (R27, R161): an empty bank and
no command in flight. The channels are empty and both neighbours are ready (log 8, 9). -/
def State.resetWith (p : Params) (dev : Nat) : State :=
  { params := p, devAddr := dev, bank := [], phase := .idle, rst := false, commands := [], respReady := true,
    responses := [], treqReady := true, calls := [], answers := [], stale := 0, freeCount := 0 }

/-- The state right after reset (R27), for the unbounded block (log 1) with the strap at 0 (log 12). -/
def State.reset : State :=
  State.resetWith Params.unbounded 0

end Sys2Proof.Machine
end

