-- ==== Sys2Proof/Machine/Bits.lean ====
section
/-! DEFINITION. Machine/Bits.lean: the conversion functions between integers, bit-vectors and bytes, and the
extraction of a window (spec/40_conversions.md R70 to R75; spec/42_segment_data.md R94; spec/20_memory.md R33 to R35).
All arithmetic is exact (R75). -/

namespace Sys2Proof.Machine

/-- The bits of `to_bits(v, w)` for a value in range (R70): index `i` holds `(v div 2^i) mod 2`. -/
def toBits (v w : Nat) : Bits :=
  (List.range w).map fun i => decide (v / 2 ^ i % 2 = 1)

/-- The range test of `to_bits` (R70): `0 <= v < 2^w`. -/
def inRange (v : Int) (w : Nat) : Bool :=
  decide (0 ≤ v ∧ v < (2 ^ w : Int))

/-- `to_int(b)` (R71): the sum of `b[i] * 2^i`. -/
def toInt : Bits → Nat
  | [] => 0
  | b :: bs => b.toNat + 2 * toInt bs

/-- `to_twos_comp_int(b)` (R72): the unsigned value, less `2^len` when the bit of the highest index is 1. The empty
vector has no such bit and gives 0 (D13). -/
def toTwosCompInt (b : Bits) : Int :=
  if b.getLast? = some true then (toInt b : Int) - 2 ^ b.length else toInt b

/-- `num_bytes_for_bits(n)` (R73): `ceil(n / 8)`. -/
def numBytesForBits (n : Nat) : Nat :=
  (n + 7) / 8

/-- Byte `j` of a padded byte array: the 8-bit group `j` of `b`, zero-padded at its high end (R35, R74). -/
def groupByte (b : Bits) (j : Nat) : Byte :=
  BitVec.ofNat 8 (toInt ((b.drop (8 * j)).take 8))

/-- `to_padded_byte_arr(b)` (R74): least-significant byte first. -/
def toPaddedByteArr (b : Bits) : List Byte :=
  (List.range (numBytesForBits b.length)).map (groupByte b)

/-- Global bit `g` of a byte sequence: bit `g mod 8` of byte `g div 8` (R34). -/
def byteBit (y : List Byte) (g : Nat) : Bool :=
  (y.getD (g / 8) 0#8).getLsbD (g % 8)

/-- `bytes_needed(msb)` (R94). -/
def bytesNeeded (msb : Nat) : Nat :=
  numBytesForBits (msb + 1)

/-- The bytes cover `msb` (R94): otherwise the extraction fails with InsufficientData. -/
def covers (msb : Nat) (y : List Byte) : Bool :=
  decide (bytesNeeded msb ≤ y.length)

/-- `extract(lsb, msb, y)` for bytes that cover `msb` (R94): local index `i` is global bit `lsb + i`. -/
def extract (lsb msb : Nat) (y : List Byte) : Bits :=
  (List.range (msb - lsb + 1)).map fun i => byteBit y (lsb + i)

/-- The width of a segment (spec/00_scope.md R5). -/
def Segment.width (S : Segment) : Nat :=
  S.msb - S.lsb + 1

/-- `total_bits(r)` (R84): the sum of the segment widths. -/
def totalBits (segs : List Segment) : Nat :=
  (segs.map Segment.width).sum

/-- `total_bytes(r)` (R85). -/
def totalBytes (segs : List Segment) : Nat :=
  numBytesForBits (totalBits segs)

end Sys2Proof.Machine
end

