-- ==== Sys2Proof/Machine/Operands.lean ====
section
/-! DEFINITION. Machine/Operands.lean: the operand forms: names looked up in the bank, bit-vector operands checked
element by element, and the capacity tests (spec/10_state.md R19, R21; spec/30_encoding.md R61; spec/40_conversions.md
R76; spec/92_eei_decisions.md D6, D8, D10). -/

namespace Sys2Proof.Machine

/-- `REG(r)` (spec/00_scope.md R5): the register context of that name. -/
def State.findReg (s : State) (reg : Name) : Option RegCtx :=
  s.bank.find? fun c => c.name == reg

/-- The slot of the register context of that name (R19). -/
def State.regSlot (s : State) (reg : Name) : Nat :=
  s.bank.findIdx fun c => c.name == reg

/-- `SEG(r,s)` (spec/00_scope.md R5): the segment of that name in a register context. -/
def RegCtx.findSeg (c : RegCtx) (seg : Name) : Option Segment :=
  c.segs.find? fun S => S.name == seg

/-- The slot of the segment of that name (R19). -/
def RegCtx.segSlot (c : RegCtx) (seg : Name) : Nat :=
  c.segs.findIdx fun S => S.name == seg

/-- A count above a capacity: `n > MAX`; never, when the capacity is unbounded (D6). -/
def exceeds (cap : Option Nat) (n : Nat) : Bool :=
  match cap with
  | none => false
  | some m => decide (m < n)

/-- A table at its capacity: `n = MAX` (D6, R80, R81). -/
def atCapacity (cap : Option Nat) (n : Nat) : Bool :=
  decide (cap = some n)

/-- A bit position outside `MAX_BITS`: `msb >= MAX_BITS` (R81). -/
def beyondBits (cap : Option Nat) (msb : Nat) : Bool :=
  match cap with
  | none => false
  | some m => decide (m ≤ msb)

/-- An element that is a valid bit (R61): it equals 0 or 1. -/
def isBit (e : Nat) : Bool :=
  decide (e ≤ 1)

/-- The lowest index whose element is neither 0 nor 1 (R76, R90, D10). -/
def firstBad (vec : List Nat) : Option Nat :=
  vec.findIdx? fun e => !isBit e

/-- The bit-vector of a well-formed operand (R61): element `i` is index `i`. -/
def bitsOf (vec : List Nat) : Bits :=
  vec.map fun e => decide (e = 1)

end Sys2Proof.Machine
end

