-- ==== Sys2Proof/Machine/Flags.lean ====
section
/-! DEFINITION. Machine/Flags.lean: the block has no flag register and no condition codes (spec/10_state.md R23).
What stands in their place is the status of a response, with its code (spec/30_encoding.md R57, R58), and the membership
tests of an AccessMode (spec/60_exceptions.md R145). -/

namespace Sys2Proof.Machine

/-- The status codes (R57). -/
def Status.code : Status → BitVec 8
  | .ok => 0x00#8
  | .configurationError => 0x01#8
  | .lengthMismatch => 0x02#8
  | .invalidBitValue => 0x03#8
  | .rangeError => 0x04#8
  | .notFound => 0x05#8
  | .duplicateName => 0x06#8
  | .accessDenied => 0x07#8
  | .insufficientData => 0x08#8
  | .continuityError => 0x09#8
  | .overlapError => 0x0A#8
  | .transportError => 0x0B#8
  | .capacityExceeded => 0x0C#8
  | .emptyRegister => 0x0D#8
  | .illegalCommand => 0x0E#8

/-- `which` as a number (R58): 0 = register, 1 = segment. -/
def NameKind.code : NameKind → Nat
  | .register => 0
  | .segment => 1

/-- `which` as a number (R58): 0 = `MAX_REGS`, 1 = `MAX_SEGS`, 2 = `MAX_BITS`, 3 = `MAX_BYTES`. -/
def CapacityKind.code : CapacityKind → Nat
  | .regs => 0
  | .segs => 1
  | .bits => 2
  | .bytes => 3

/-- READ's access check (R100, R145): Readable is in the mode. -/
def RegCtx.mayRead (c : RegCtx) : Bool :=
  c.mode.readable

/-- WRITE's access check (R101, R145): Writable is in the mode. -/
def RegCtx.mayWrite (c : RegCtx) : Bool :=
  c.mode.writable

end Sys2Proof.Machine
end

