-- ==== Sys2Proof/Machine/Checker.lean ====
section
/-! DEFINITION. Machine/Checker.lean: the overlap and continuity checker and the packing of segments into bytes
(spec/43_transfer.md R102, R103), and the unpacking of bytes into every segment (R100). -/

namespace Sys2Proof.Machine

/-- `maxBit` (R102, step 1): the maximum `msb`. It means something for a non-empty list only. -/
def maxBit (segs : List Segment) : Nat :=
  segs.foldr (fun S m => max S.msb m) 0

/-- The segment owns global bit `g` (R102, step 2). -/
def Segment.owns (S : Segment) (g : Nat) : Bool :=
  decide (S.lsb ≤ g ∧ g ≤ S.msb)

/-- The names of the segments that own global bit `g`, in slot order (R102, step 2). -/
def owners (segs : List Segment) (g : Nat) : List Name :=
  (segs.filter fun S => S.owns g).map Segment.name

/-- The gap set (R102, step 3), ascending. -/
def gaps (segs : List Segment) : List Nat :=
  (List.range (maxBit segs + 1)).filter fun g => (owners segs g).isEmpty

/-- The conflict set (R102, step 3), ascending by bit, each bit with its owners in slot order. -/
def conflicts (segs : List Segment) : List (Nat × List Name) :=
  ((List.range (maxBit segs + 1)).filter fun g => decide (2 ≤ (owners segs g).length)).map
    fun g => (g, owners segs g)

/-- What `validate` fails with (R102, steps 4 and 5): ContinuityError before OverlapError; `none` when it returns. -/
def layoutError (segs : List Segment) : Option (Status × Detail) :=
  if gaps segs ≠ [] then some (.continuityError, .gaps (gaps segs))
  else if conflicts segs ≠ [] then some (.overlapError, .conflicts (conflicts segs))
  else none

/-- Global bit `g` of the assembled register value (R103): the bit its owner stores for it. After `validate` every
bit has exactly one owner, so the first is the only one. -/
def assembledBit (segs : List Segment) (g : Nat) : Bool :=
  match segs.find? fun S => S.owns g with
  | some S => S.bits.getD (g - S.lsb) false
  | none => false

/-- `assemble(segs, maxBit)` (R103). -/
def assemble (segs : List Segment) : Bits :=
  (List.range (maxBit segs + 1)).map (assembledBit segs)

/-- `pack(segs, maxBit)` (R103). -/
def pack (segs : List Segment) : List Byte :=
  toPaddedByteArr (assemble segs)

/-- The first segment in slot order whose window the bytes do not cover (R58, R100). -/
def firstUncovered (segs : List Segment) (y : List Byte) : Option Segment :=
  segs.find? fun S => !covers S.msb y

/-- READ's loop (R100, D14): in slot order each covered segment takes its window of the bytes, and the loop stops at
the first uncovered one, which keeps its bits as do all later ones. -/
def unpack (y : List Byte) : List Segment → List Segment
  | [] => []
  | S :: rest =>
    if covers S.msb y then { S with bits := extract S.lsb S.msb y } :: unpack y rest
    else S :: rest

end Sys2Proof.Machine
end

