-- ==== Sys2Proof/Machine/Ops.lean ====
section
/-! DEFINITION. Machine/Ops.lean: the shared operations on the state: responding and raising an error, the lookups,
the writes of the register and segment tables, the transport call, the channels, and reset (spec/10_state.md,
spec/20_memory.md R30 to R46, spec/60_exceptions.md R138, spec/70_reset_and_hazards.md R161 to R166). -/

namespace Sys2Proof.Machine

/-! The response (R56). -/

/-- A value cut to a channel's width: what is left of a free value by the bound the spec sets (R4, R56). -/
def cutTo (w : Option Nat) (v : Nat) : Nat :=
  match w with
  | none => v
  | some k => v % 2 ^ k

/-- A signed value cut to a channel's width. -/
def cutToSigned (w : Option Nat) (v : Int) : Int :=
  match w with
  | none => v
  | some k => v.bmod (2 ^ k)

/-- The result fields of a response before its command's rule names any: all unspecified (R56, U6), so each is the
free value of this response's number (log 6). -/
def State.freeResults (s : State) : Results :=
  { uval := Config.freeUval s.freeCount
    sval := cutToSigned s.params.valW (Config.freeSval s.freeCount)
    n0 := Config.freeN0 s.freeCount
    n1 := Config.freeN1 s.freeCount
    raddr := cutTo s.params.raW (Config.freeRaddr s.freeCount)
    mode := AccessMode.ofBits (Config.freeMode s.freeCount)
    vec := Config.freeVec s.freeCount
    bytes := Config.freeBytes s.freeCount }

/-- The command ends: its one response record is offered to the host (R56). -/
def State.respond (s : State) (r : Response) : State :=
  { s with phase := .responding r, freeCount := s.freeCount + 1 }

/-- `respond OK(fields)` (spec/00_scope.md R5): the fields the rule names hold the result, `detail` is empty, and
every other field is unspecified (R56). -/
def State.respondOk (s : State) (fields : Results → Results) : Result :=
  .next (s.respond { status := .ok, results := fields s.freeResults, detail := .empty })

/-- `raise E(detail)` (R138), the block's one way to take an exception: the command ends at this line with the status
of `E` and its detail; the result fields are unspecified. No state is saved, no handler runs, nothing is masked or
sticky; what was stored before this line stays stored (R138, R142). There is no return from it (R142). -/
def State.raise (s : State) (e : Status) (detail : Detail) : Result :=
  .next (s.respond { status := e, results := s.freeResults, detail := detail })

/-! The lookups (D9: register first, then segment). -/

/-- `if REG(reg) = none: raise NotFound(which = 0, name = reg)`, else go on with the context. -/
def State.withReg (s : State) (reg : Name) (k : RegCtx → Result) : Result :=
  match s.findReg reg with
  | none => s.raise .notFound (.named .register reg)
  | some c => k c

/-- The register's lookup, then `if SEG(reg, seg) = none: raise NotFound(which = 1, name = seg)`. -/
def State.withSeg (s : State) (reg seg : Name) (k : RegCtx → Segment → Result) : Result :=
  s.withReg reg fun c =>
    match c.findSeg seg with
    | none => s.raise .notFound (.named .segment seg)
    | some S => k c S

/-- `check_vec` (R76), for the conversion commands. -/
def State.withVec (s : State) (vec : List Nat) (k : Bits → Result) : Result :=
  if exceeds s.params.maxBits vec.length then s.raise .capacityExceeded (.capacity .bits)
  else
    match firstBad vec with
    | some i => s.raise .invalidBitValue (.index i)
    | none => k (bitsOf vec)

/-! The tables. -/

/-- Apply `f` to the first entry that `p` accepts: the entry a lookup by name finds. -/
def modifyFirst {α : Type} (p : α → Bool) (f : α → α) : List α → List α
  | [] => []
  | a :: l => if p a then f a :: l else a :: modifyFirst p f l

/-- Change the segment table of the register context of that name. -/
def State.updateSegs (s : State) (reg : Name) (f : List Segment → List Segment) : State :=
  { s with bank := modifyFirst (fun c => c.name == reg) (fun c => { c with segs := f c.segs }) s.bank }

/-- `SEG(r,s).bits <- v` (spec/00_scope.md R5): the whole vector is replaced at once. -/
def State.storeBits (s : State) (reg seg : Name) (v : Bits) : State :=
  s.updateSegs reg (modifyFirst (fun S => S.name == seg) fun S => { S with bits := v })

/-- Append a register context to the bank (R80): it takes the next slot (R19). -/
def State.addReg (s : State) (c : RegCtx) : State :=
  { s with bank := s.bank ++ [c] }

/-- Append a segment to a register's table (R81): it takes the next slot (R19). -/
def State.addSeg (s : State) (reg : Name) (S : Segment) : State :=
  s.updateSegs reg fun segs => segs ++ [S]

/-! The transport (R30 to R32, R38, R42 to R44, R46). -/

/-- The field `kind` of a request record (R46). -/
def TransportRequest.kind : TransportRequest → Nat
  | .readBytes _ _ _ => 0
  | .writeBytes _ _ _ => 1

/-- The `TSTAT_W`-bit status word of an answer (R32, R46): 0 is success. DESIGN CHOICE (log 19): of a number with more
bits, the word is the low `TSTAT_W` bits. -/
def TransportAnswer.status (p : Params) (a : TransportAnswer) : Nat :=
  cutTo p.tstatW a.tstatus

/-- The next answer that is not owed to an abandoned request, and the state after it and the discarded ones before it
are taken (R46: one answer per request, in order; R163: a late answer is discarded). -/
def State.takeAnswer (s : State) : Option (TransportAnswer × State) :=
  match s.answers.drop s.stale with
  | [] => none
  | a :: rest => some (a, { s with answers := rest, stale := 0 })

/-- What a READ or WRITE does with its transport's answer (R42, R100, R101): a non-zero status is TransportError and
nothing is stored; otherwise a READ unpacks the bytes into the register's segments in slot order and reports the first
uncovered one, and a WRITE is done. -/
def State.finishTransfer (s : State) (t : Transfer) (a : TransportAnswer) : Result :=
  if a.status s.params ≠ 0 then s.raise .transportError (.tstatus (a.status s.params))
  else
    match t.request with
    | .writeBytes _ _ _ => s.respondOk id
    | .readBytes _ _ _ =>
      match s.findReg t.reg with
      | none => .fault .transferRegisterMissing
      | some c =>
        match firstUncovered c.segs a.rbytes with
        | none => (s.updateSegs t.reg (unpack a.rbytes)).respondOk id
        | some S =>
          (s.updateSegs t.reg (unpack a.rbytes)).raise .insufficientData
            (.insufficient S.name (bytesNeeded S.msb) a.rbytes.length)

/-- The transfer's request has been taken: the answer ends the wait, and until it comes the block does nothing (R44). -/
def State.awaitAnswer (s : State) (t : Transfer) : Result :=
  match s.takeAnswer with
  | none => .next { s with phase := .waiting t }
  | some (a, s') => s'.finishTransfer t a

/-- The transfer's request is offered; it passes when the transport is ready (R46), and then is one call (R38). -/
def State.offerRequest (s : State) (t : Transfer) : Result :=
  if s.treqReady then ({ s with calls := s.calls ++ [t.request] } : State).awaitAnswer t
  else .next { s with phase := .requesting t }

/-! The host's channels and reset. -/

/-- The next command record on the command channel, and the state after it is accepted (R50). -/
def State.fetch (s : State) : Option (CommandRecord × State) :=
  match s.commands with
  | [] => none
  | r :: rest => some (r, { s with commands := rest })

/-- A reserved `op` answers IllegalCommand with the `op` as its detail (R53, R147). -/
def State.rejectRecord (s : State) (e : DecodeError) : Result :=
  match e with
  | .illegalCommand op => s.raise .illegalCommand (.opcode op)

/-- The response record is offered; it passes when the host is ready, and the block is then ready for a command
(R138, R166). -/
def State.offerResponse (s : State) (r : Response) : State :=
  if s.respReady then { s with phase := .idle, responses := s.responses ++ [r] } else s

/-- `rst` is high (R161 to R163): the bank is empty, the command in flight is abandoned without a response, and the
answer to a request that the transport had taken will be discarded (log 10). -/
def State.applyReset (s : State) : State :=
  { s with
    bank := []
    phase := .idle
    stale := match s.phase with
      | .waiting _ => s.stale + 1
      | _ => s.stale }

end Sys2Proof.Machine
end

