-- ==== Sys2Proof/Machine/Configuration.lean ====
section
/-! DEFINITION. Machine/Configuration.lean: REGADD, SEGADD, REGGET, SEGGET, TOTBITS, TOTBYTES
(spec/41_configuration.md). None makes a transport call and none checks the layout (R16). -/

namespace Sys2Proof.Machine

/-- REGADD (R80). -/
def execRegadd (reg : Name) (raddr : Nat) (mode : AccessMode) (s : State) : Result :=
  if (s.findReg reg).isSome then s.raise .duplicateName (.named .register reg)
  else if atCapacity s.params.maxRegs s.bank.length then s.raise .capacityExceeded (.capacity .regs)
  else
    (s.addReg { name := reg, raddr := raddr, mode := mode, segs := [] }).respondOk
      fun f => { f with n0 := s.bank.length }

/-- SEGADD (R81). -/
def execSegadd (reg seg : Name) (lsb msb : Nat) (s : State) : Result :=
  s.withReg reg fun c =>
    if msb < lsb then s.raise .configurationError (.pair lsb msb)
    else if (c.findSeg seg).isSome then s.raise .duplicateName (.named .segment seg)
    else if beyondBits s.params.maxBits msb then s.raise .capacityExceeded (.capacity .bits)
    else if atCapacity s.params.maxSegs c.segs.length then s.raise .capacityExceeded (.capacity .segs)
    else
      (s.addSeg reg { name := seg, lsb := lsb, msb := msb, bits := List.replicate (msb - lsb + 1) false }).respondOk
        fun f => { f with n0 := c.segs.length }

/-- REGGET (R82, D26): a snapshot of the context and its slot. -/
def execRegget (reg : Name) (s : State) : Result :=
  s.withReg reg fun c =>
    s.respondOk fun f =>
      { f with raddr := c.raddr, mode := c.mode, uval := c.segs.length, n0 := s.regSlot reg }

/-- SEGGET (R83, D26): a snapshot of the segment and its slot. -/
def execSegget (reg seg : Name) (s : State) : Result :=
  s.withSeg reg seg fun c S =>
    s.respondOk fun f => { f with n0 := S.lsb, n1 := S.msb, vec := S.bits, uval := c.segSlot seg }

/-- TOTBITS (R84). -/
def execTotbits (reg : Name) (s : State) : Result :=
  s.withReg reg fun c => s.respondOk fun f => { f with uval := totalBits c.segs }

/-- TOTBYTES (R85). -/
def execTotbytes (reg : Name) (s : State) : Result :=
  s.withReg reg fun c => s.respondOk fun f => { f with uval := totalBytes c.segs }

end Sys2Proof.Machine
end

