-- ==== Sys2Proof/Machine/Conversions.lean ====
section
/-! DEFINITION. Machine/Conversions.lean: TOBITS, TOINT, TOTC, NBYTES, PADBYTES (spec/40_conversions.md). They read
and write no state of the block and make no transport call. -/

namespace Sys2Proof.Machine

/-- TOBITS (R70). -/
def execTobits (value : Int) (width : Nat) (s : State) : Result :=
  if exceeds s.params.maxBits width then s.raise .capacityExceeded (.capacity .bits)
  else if inRange value width then s.respondOk fun f => { f with vec := toBits value.toNat width }
  else s.raise .rangeError .empty

/-- TOINT (R71). -/
def execToint (vec : List Nat) (s : State) : Result :=
  s.withVec vec fun b => s.respondOk fun f => { f with uval := toInt b }

/-- TOTC (R72). -/
def execTotc (vec : List Nat) (s : State) : Result :=
  s.withVec vec fun b => s.respondOk fun f => { f with sval := toTwosCompInt b }

/-- NBYTES (R73): never fails (R136). -/
def execNbytes (n : Nat) (s : State) : Result :=
  s.respondOk fun f => { f with uval := numBytesForBits n }

/-- PADBYTES (R74). -/
def execPadbytes (vec : List Nat) (s : State) : Result :=
  s.withVec vec fun b => s.respondOk fun f => { f with bytes := toPaddedByteArr b }

end Sys2Proof.Machine
end

