-- ==== Sys2Proof/Machine/SegmentData.lean ====
section
/-! DEFINITION. Machine/SegmentData.lean: SETBITS, SEGUPD, SEGINT, SEGTC (spec/42_segment_data.md). None makes a
transport call, and none needs an access mode (R145). -/

namespace Sys2Proof.Machine

/-- SETBITS (R90): the length is tested before the elements, and the vector is replaced whole or not at all. -/
def execSetbits (reg seg : Name) (vec : List Nat) (s : State) : Result :=
  s.withSeg reg seg fun _ S =>
    if vec.length ≠ S.width then s.raise .lengthMismatch (.pair S.width vec.length)
    else
      match firstBad vec with
      | some i => s.raise .invalidBitValue (.index i)
      | none => (s.storeBits reg seg (bitsOf vec)).respondOk id

/-- SEGUPD (R91): the segment takes its window of the register's bytes. -/
def execSegupd (reg seg : Name) (bytes : List Byte) (s : State) : Result :=
  s.withSeg reg seg fun _ S =>
    if exceeds s.params.maxBytes bytes.length then s.raise .capacityExceeded (.capacity .bytes)
    else if covers S.msb bytes then (s.storeBits reg seg (extract S.lsb S.msb bytes)).respondOk id
    else s.raise .insufficientData (.insufficient seg (bytesNeeded S.msb) bytes.length)

/-- SEGINT (R92): `to_int` of the stored vector (C9). -/
def execSegint (reg seg : Name) (s : State) : Result :=
  s.withSeg reg seg fun _ S => s.respondOk fun f => { f with uval := toInt S.bits }

/-- SEGTC (R93): `to_twos_comp_int` of the stored vector. -/
def execSegtc (reg seg : Name) (s : State) : Result :=
  s.withSeg reg seg fun _ S => s.respondOk fun f => { f with sval := toTwosCompInt S.bits }

end Sys2Proof.Machine
end

