-- ==== Sys2Proof/Machine/Transfers.lean ====
section
/-! DEFINITION. Machine/Transfers.lean: READ and WRITE (spec/43_transfer.md R100, R101). Each makes its checks, then
its one transport call (R38), and ends with the transport's answer; while there is no answer the command stays in
flight (R44). -/

namespace Sys2Proof.Machine

/-- READ (R100): access check, then one `TRead` of `total_bytes` bytes; the layout is not checked. -/
def execRead (reg : Name) (s : State) : Result :=
  s.withReg reg fun c =>
    if !c.mayRead then s.raise .accessDenied .empty
    else if exceeds s.params.maxBytes (totalBytes c.segs) then s.raise .capacityExceeded (.capacity .bytes)
    else s.offerRequest { reg := reg, request := .readBytes s.devAddr c.raddr (totalBytes c.segs) }

/-- WRITE (R101): access check, EmptyRegister (D12), the overlap and continuity checker, then one `TWrite` of the
packed bytes. -/
def execWrite (reg : Name) (s : State) : Result :=
  s.withReg reg fun c =>
    if !c.mayWrite then s.raise .accessDenied .empty
    else if c.segs.isEmpty then s.raise .emptyRegister .empty
    else
      match layoutError c.segs with
      | some (e, detail) => s.raise e detail
      | none => s.offerRequest { reg := reg, request := .writeBytes s.devAddr c.raddr (pack c.segs) }

end Sys2Proof.Machine
end

