-- ==== Sys2Proof/Machine/Dispatch.lean ====
section
/-! DEFINITION. Machine/Dispatch.lean: one arm per command. -/

namespace Sys2Proof.Machine

def exec (i : Instr) (s : State) : Host.Outcome State Fault Refusal :=
  match i with
  | .tobits value width => Sys2Proof.Machine.execTobits value width s
  | .toint vec => Sys2Proof.Machine.execToint vec s
  | .totc vec => Sys2Proof.Machine.execTotc vec s
  | .nbytes n => Sys2Proof.Machine.execNbytes n s
  | .padbytes vec => Sys2Proof.Machine.execPadbytes vec s
  | .regadd reg raddr mode => Sys2Proof.Machine.execRegadd reg raddr mode s
  | .segadd reg seg lsb msb => Sys2Proof.Machine.execSegadd reg seg lsb msb s
  | .regget reg => Sys2Proof.Machine.execRegget reg s
  | .segget reg seg => Sys2Proof.Machine.execSegget reg seg s
  | .totbits reg => Sys2Proof.Machine.execTotbits reg s
  | .totbytes reg => Sys2Proof.Machine.execTotbytes reg s
  | .setbits reg seg vec => Sys2Proof.Machine.execSetbits reg seg vec s
  | .segupd reg seg bytes => Sys2Proof.Machine.execSegupd reg seg bytes s
  | .segint reg seg => Sys2Proof.Machine.execSegint reg seg s
  | .segtc reg seg => Sys2Proof.Machine.execSegtc reg seg s
  | .read reg => Sys2Proof.Machine.execRead reg s
  | .write reg => Sys2Proof.Machine.execWrite reg s

end Sys2Proof.Machine
end

