-- ==== Sys2Proof/Machine/Step.lean ====
section
/-! DEFINITION. Machine/Step.lean: one step of the block: reset, accepting and running a command, moving a transfer
on, or handing over a response (spec/20_memory.md R39, R44, R46; spec/70_reset_and_hazards.md R161, R166). -/

namespace Sys2Proof.Machine

/-- The record just accepted: a reserved `op` is answered IllegalCommand (R53); a command runs (its operands fit the
channel, or there is no such record: log 5). -/
def runRecord (r : CommandRecord) (s : State) : Result :=
  match decode r with
  | .error e => s.rejectRecord e
  | .ok i => if i.wf s.params then exec i s else .refused .recordDoesNotFit

/-- One step. A command is accepted only in the idle phase (R166); an idle block with no command stays idle. -/
def step (s : State) : Host.Outcome State Fault Refusal :=
  if s.rst then .next s.applyReset
  else
    match s.phase with
    | .idle =>
      match s.fetch with
      | none => .next s
      | some (r, s') => runRecord r s'
    | .requesting t => s.offerRequest t
    | .waiting t => s.awaitAnswer t
    | .responding r => .next (s.offerResponse r)

/-- `s` with the record of a word of the opcode table as the next one the host offers, the block idle and out of
reset, so that the next step accepts and runs exactly it (log 3, log 17). -/
def State.withFetchWord (s : State) (nbits w : Nat) : State :=
  { s with commands := tableRecord nbits w :: s.commands, phase := .idle, rst := false }

end Sys2Proof.Machine
end

