-- ==== Sys2Proof/Machine/BankSequences.lean ====
section
/-! DEFINITION. Machine/BankSequences.lean: the RegisterBank's composed operations as host-side sequences of commands
(spec/44_bank_sequences.md R120 to R128). The block sees only the commands; these functions are what a host that issues
them gets and what it leaves behind (log 16). -/

namespace Sys2Proof.Machine

/-- What a host has after a command or a sequence: the last response and the state; `none` where no response came
(the transport has not answered, R44). -/
abbrev HostResult := Option (Response × State)

/-- One command issued to an idle block and its response taken (R120, R166). DESIGN CHOICE (log 16): a sequence has no
`Instr.wf` test, so it goes on with what the command's rule says of any operand, also one that no channel of the block's
widths can carry, such as a `value` of BANK.SETINT wider than `VAL_W`, which R128 answers RangeError. `step` refuses the
record of such a command (log 5). -/
def issue (i : Instr) (s : State) : HostResult :=
  match exec i s with
  | .next t =>
    match t.phase with
    | .responding r => some (r, { t with phase := .idle, responses := t.responses ++ [r] })
    | _ => none
  | _ => none

/-- The next command of a sequence is issued only after an `OK`; the first error is the outcome, and what the earlier
commands did stays done (R120). -/
def andThen (x : HostResult) (k : Response → State → HostResult) : HostResult :=
  match x with
  | none => none
  | some (r, s) => if r.status = .ok then k r s else some (r, s)

/-- What a host does in one position of a sequence (R120, R126): nothing more, or one command and then what it chooses
from the response. It can do only what commands can do. -/
inductive HostSequence where
  | done
  | command (i : Instr) (next : Response → HostSequence)

/-- Run a host's sequence (R120): it goes on only after an `OK`, and its first error is the outcome; `last` is the
response so far. -/
def runSequence : HostSequence → Response → State → HostResult
  | .done, last, s => some (last, s)
  | .command i next, _, s => andThen (issue i s) fun r s' => runSequence (next r) r s'

/-- The default write strategy (R126): the single command WRITE. -/
def writeStrategy (reg : Name) : HostSequence :=
  .command (.write reg) fun _ => .done

/-- A step written `if flag: X` (R120). -/
def readIf (flag : Bool) (reg : Name) (s : State) (k : State → HostResult) : HostResult :=
  if flag then andThen (issue (.read reg) s) fun _ s' => k s' else k s

/-- The SEGADD commands of BANK.ADD, in order (R121); `last` is the response so far. -/
def addSegments (reg : Name) : List (Name × Nat × Nat) → Response → State → HostResult
  | [], last, s => some (last, s)
  | (seg, lsb, msb) :: rest, _, s =>
    andThen (issue (.segadd reg seg lsb msb) s) fun r s' => addSegments reg rest r s'

/-- BANK.ADD (R121): not atomic. -/
def bankAdd (reg : Name) (raddr : Nat) (mode : AccessMode) (segs : List (Name × Nat × Nat)) (s : State) : HostResult :=
  andThen (issue (.regadd reg raddr mode) s) fun r s' => addSegments reg segs r s'

/-- BANK.GET (R122); `readFirst` defaults to false (R120). -/
def bankGet (reg : Name) (readFirst : Bool := false) (s : State) : HostResult :=
  readIf readFirst reg s fun s' => issue (.regget reg) s'

/-- BANK.READ (R123). -/
def bankRead (reg : Name) (s : State) : HostResult :=
  issue (.read reg) s

/-- BANK.WRITE (R123). -/
def bankWrite (reg : Name) (s : State) : HostResult :=
  issue (.write reg) s

/-- BANK.TOINT (R124); `readFirst` defaults to false (R120). -/
def bankToint (reg seg : Name) (readFirst : Bool := false) (s : State) : HostResult :=
  readIf readFirst reg s fun s' => issue (.segint reg seg) s'

/-- BANK.TOTC (R125); `readFirst` defaults to false (R120). -/
def bankTotc (reg seg : Name) (readFirst : Bool := false) (s : State) : HostResult :=
  readIf readFirst reg s fun s' => issue (.segtc reg seg) s'

/-- BANK.SETBITS (R127); `writeFn` is the host's write strategy, by default WRITE (R126), and `writeAfter` defaults to
false (R120). -/
def bankSetbits (reg seg : Name) (vec : List Nat) (writeAfter : Bool := false)
    (writeFn : Name → HostSequence := writeStrategy) (s : State) : HostResult :=
  andThen (issue (.setbits reg seg vec) s) fun r s' =>
    if writeAfter then runSequence (writeFn reg) r s' else some (r, s')

/-- BANK.SETINT (R128): the width from SEGGET, the bits from TOBITS, then as BANK.SETBITS. The host carries the width
and the vector from one command to the next. Its flag and its strategy default as those of BANK.SETBITS. -/
def bankSetint (reg seg : Name) (value : Int) (writeAfter : Bool := false)
    (writeFn : Name → HostSequence := writeStrategy) (s : State) : HostResult :=
  andThen (issue (.segget reg seg) s) fun g s1 =>
    andThen (issue (.tobits value (g.results.n1 - g.results.n0 + 1)) s1) fun b s2 =>
      bankSetbits reg seg (b.results.vec.map Bool.toNat) writeAfter writeFn s2

end Sys2Proof.Machine
end

