-- ==== Sys2Proof/Safety.lean ====
section
/-! DEFINITION. Safety.lean: what a legal state of the block is (spec/10_state.md R11, R19, R21, R24;
spec/00_scope.md R4), and the words in which claims speak of layouts, errors and transport calls. -/

namespace Sys2Proof.Machine

/-- The invariant of a stored segment (R11, R24): `lsb ≤ msb < MAX_BITS`, `len(bits) = msb − lsb + 1`, a name of
`NAME_W` bits. (Every bit is 0 or 1 by type.) -/
abbrev Segment.Legal (p : Params) (S : Segment) : Prop :=
  S.lsb ≤ S.msb ∧ S.bits.length = S.msb - S.lsb + 1 ∧ beyondBits p.maxBits S.msb = false ∧ fits p.nameW S.name = true

/-- The invariant of a register context (R15, R21, R24): segment names unique, at most `MAX_SEGS` segments, each legal,
name and address of their widths. It does not ask for a partition (R16). -/
abbrev RegCtx.Legal (p : Params) (c : RegCtx) : Prop :=
  (c.segs.map Segment.name).Nodup ∧ exceeds p.maxSegs c.segs.length = false ∧ (∀ S ∈ c.segs, S.Legal p) ∧
    fits p.nameW c.name = true ∧ fits p.raW c.raddr = true

/-- The invariant of the bank (R17, R19, R21). -/
abbrev BankLegal (p : Params) (bank : List RegCtx) : Prop :=
  (bank.map RegCtx.name).Nodup ∧ exceeds p.maxRegs bank.length = false ∧ ∀ c ∈ bank, c.Legal p

/-- What a transfer in flight keeps (R25, R26, R31, R32): its register is in the bank, and its request carries the
strap and that register's address. -/
def Transfer.Legal (s : State) (t : Transfer) : Prop :=
  ∃ c, s.findReg t.reg = some c ∧
    match t.request with
    | .readBytes dev ra count => dev = s.devAddr ∧ ra = c.raddr ∧ count = totalBytes c.segs ∧ c.mode.readable = true
    | .writeBytes dev ra bytes => dev = s.devAddr ∧ ra = c.raddr ∧ bytes = pack c.segs ∧ c.mode.writable = true

/-- What a response offered to the host keeps (R46, R58): the status word in its detail has `TSTAT_W` bits. -/
def Response.Legal (p : Params) (r : Response) : Prop :=
  ∀ n, r.detail = .tstatus n → fits p.tstatW n = true

/-- The legal states of the block: parameters that meet R4's constraints, the bank's invariant, a strap of `DEV_W` bits,
and what the transfer in flight or the response offered keeps, if there is one. -/
def State.Legal (s : State) : Prop :=
  s.params.wf = true ∧ BankLegal s.params s.bank ∧ fits s.params.devW s.devAddr = true ∧
    match s.phase with
    | .requesting t => t.Legal s
    | .waiting t => t.Legal s
    | .idle => True
    | .responding r => r.Legal s.params

/-- `M` is the maximum `msb` of the segments (R102, step 1). -/
abbrev IsMaxBit (segs : List Segment) (M : Nat) : Prop :=
  (∀ S ∈ segs, S.msb ≤ M) ∧ ∃ S ∈ segs, S.msb = M

/-- A layout that a WRITE accepts (R16): every bit from 0 to `M` is in exactly one window. -/
abbrev Partitions (segs : List Segment) (M : Nat) : Prop :=
  ∀ g, g ≤ M → (segs.filter fun S => decide (S.lsb ≤ g ∧ g ≤ S.msb)).length = 1

/-- The response offered in a state, if one is. -/
def State.offered (s : State) : Option Response :=
  match s.phase with
  | .responding r => some r
  | _ => none

/-- The status of the response offered in a state, if one is. -/
def State.status (s : State) : Option Status :=
  s.offered.map Response.status

/-- A command is in flight, or its response has not been taken (R166). -/
def State.busy (s : State) : Bool :=
  match s.phase with
  | .idle => false
  | _ => true

/-- The outcome of a command that ends in state `s` with a response: only the phase and the number of responses
change; `fields` sets the result fields that a rule names, and the others are unspecified (R56). -/
def answered (s : State) (status : Status) (fields : Results → Results) (detail : Detail) : Result :=
  .next { s with
    phase := .responding { status := status, results := fields s.freeResults, detail := detail }
    freeCount := s.freeCount + 1 }

/-- The outcome of a command that ends in state `s` with an error: every result field is unspecified (R138). -/
def failed (s : State) (e : Status) (detail : Detail) : Result :=
  answered s e id detail

/-- The outcome of a command that ends in state `s` with `OK`. -/
def succeeded (s : State) (fields : Results → Results) : Result :=
  answered s .ok fields .empty

/-- The descriptor of a segment: everything but its stored bits. -/
abbrev Segment.shape (S : Segment) : Name × Nat × Nat :=
  (S.name, S.lsb, S.msb)

/-- READ and WRITE: the only commands that reach the transport (R38, R41). -/
def usesTransport : Instr → Bool
  | .read _ => true
  | .write _ => true
  | _ => false

/-- The register a command names, if its format names one (R51). -/
def namedReg : Instr → Option Name
  | .tobits _ _ => none
  | .toint _ => none
  | .totc _ => none
  | .nbytes _ => none
  | .padbytes _ => none
  | .regadd reg _ _ => some reg
  | .segadd reg _ _ _ => some reg
  | .regget reg => some reg
  | .segget reg _ => some reg
  | .totbits reg => some reg
  | .totbytes reg => some reg
  | .setbits reg _ _ => some reg
  | .segupd reg _ _ => some reg
  | .segint reg _ => some reg
  | .segtc reg _ => some reg
  | .read reg => some reg
  | .write reg => some reg

/-- The error kinds each command can raise: the cells that are not blank in the table of R136. -/
def mayRaise : Instr → List Status
  | .tobits _ _ => [.rangeError, .capacityExceeded]
  | .toint _ => [.invalidBitValue, .capacityExceeded]
  | .totc _ => [.invalidBitValue, .capacityExceeded]
  | .nbytes _ => []
  | .padbytes _ => [.invalidBitValue, .capacityExceeded]
  | .regadd _ _ _ => [.duplicateName, .capacityExceeded]
  | .segadd _ _ _ _ => [.notFound, .duplicateName, .configurationError, .capacityExceeded]
  | .regget _ => [.notFound]
  | .segget _ _ => [.notFound]
  | .totbits _ => [.notFound]
  | .totbytes _ => [.notFound]
  | .setbits _ _ _ => [.notFound, .lengthMismatch, .invalidBitValue]
  | .segupd _ _ _ => [.notFound, .insufficientData, .capacityExceeded]
  | .segint _ _ => [.notFound]
  | .segtc _ _ => [.notFound]
  | .read _ => [.notFound, .accessDenied, .insufficientData, .transportError, .capacityExceeded]
  | .write _ => [.notFound, .accessDenied, .continuityError, .overlapError, .transportError, .emptyRegister]

end Sys2Proof.Machine
end

