-- ==== Sys2Proof/Certificates/Slice0/Obligations.lean ====
section
/-! DEFINITION. Certificates/Slice0/Obligations.lean: the statements. Each docstring names the rule it follows.
`succeeded`, `failed` and `answered` (Safety.lean) are the next state of a command that ends with a response: every
field of the state but the phase and the number of responses is that of the state they are given, so an equation with
them states the command's frame. -/

open Sys2Proof Sys2Proof.Machine

/-! ## Encoding and stepping -/

/-- R51, R52, R55, R59: a record decodes to a command exactly when its `op` and the fields its format names are those
of the command's own record; in particular decoding undoes encoding. -/
def Obligations.DecodeAndEncodeAgree : Prop :=
  (∀ i : Instr, decode (encode i) = .ok i) ∧
  ∀ (r : CommandRecord) (i : Instr), decode r = .ok i ↔ r.restrict i.opcode.format = encode i

/-- R59: two records with one `op` that agree in the fields its format names decode alike, and do the same from an idle
block: the same next state, so the same tables, transport calls and response. -/
def Obligations.UnnamedFieldsHaveNoEffect : Prop :=
  ∀ (r r' : CommandRecord), r.op = r'.op →
    (∀ o, Opcode.ofCode r.op = some o → r.restrict o.format = r'.restrict o.format) →
    decode r = decode r' ∧
    ∀ (s : State) (rest : List CommandRecord), s.rst = false → s.phase = .idle →
      step { s with commands := r :: rest } = step { s with commands := r' :: rest }

/-- R53: every `op` outside the table is answered IllegalCommand with the `op`, and nothing else changes. -/
def Obligations.ReservedOpsAnswerIllegalCommand : Prop :=
  ∀ (s : State) (r : CommandRecord) (rest : List CommandRecord),
    s.rst = false → s.phase = .idle → s.commands = r :: rest →
    (r.op = 0x00#8 ∨ (0x06#8 ≤ r.op ∧ r.op ≤ 0x0F#8) ∨ (0x16#8 ≤ r.op ∧ r.op ≤ 0x1F#8) ∨
      (0x24#8 ≤ r.op ∧ r.op ≤ 0x2F#8) ∨ (0x32#8 ≤ r.op ∧ r.op ≤ 0xFF#8)) →
    step s = failed { s with commands := rest } .illegalCommand (.opcode r.op)

/-- R52, R53: a few words of the opcode table decode to the commands they stand for. That the operands are zero or
empty is the model's choice (log 3): a word of the table stands for the record with every other field zero or empty. -/
def Obligations.TableWordsDecode : Prop :=
  decodeTableWord 8 0b00000100 = some (.nbytes 0) ∧
  decodeTableWord 8 0b00010001 = some (.segadd 0 0 0 0) ∧
  decodeTableWord 8 0b00100001 = some (.segupd 0 0 []) ∧
  decodeTableWord 8 0b00110001 = some (.write 0) ∧
  decodeTableWord 8 0b00000000 = none

/-- R50, R166, R39: an idle block out of reset accepts the next record of the command channel and runs the command it
decodes to, on the state without that record. A record whose operands do not fit the channel's widths does not exist;
the model refuses it (log 5, the model's choice). -/
def Obligations.StepRunsTheDecodedCommand : Prop :=
  ∀ (s : State) (r : CommandRecord) (rest : List CommandRecord) (i : Instr),
    s.rst = false → s.phase = .idle → s.commands = r :: rest → decode r = .ok i →
    (i.wf s.params = true → step s = exec i { s with commands := rest }) ∧
    (i.wf s.params = false → step s = .refused .recordDoesNotFit)

/-- Every command has a next state, on every operand and in every state, and is then in flight or answered: no command
stops the machine. -/
def Obligations.EveryCommandHasANextState : Prop :=
  ∀ (i : Instr) (s : State), ∃ t, exec i s = .next t ∧ t.phase ≠ .idle

/-- A legal state never faults, and stops only on a record that no channel of its widths can carry. -/
def Obligations.LegalStatesDoNotStop : Prop :=
  ∀ s : State, s.Legal →
    (∃ t, step s = .next t) ∨
    (step s = .refused .recordDoesNotFit ∧
      ∃ r rest i, s.commands = r :: rest ∧ decode r = .ok i ∧ i.wf s.params = false)

/-! ## Conversions -/

/-- R70: TOBITS: its encoding, CapacityExceeded first, then RangeError, else the `width` bits of the value. -/
def Obligations.TobitsAnswersBitsOrRangeError : Prop :=
  (∀ r : CommandRecord, r.op = 0x01#8 → decode r = .ok (.tobits r.ival r.n0)) ∧
  ∀ (s : State) (value : Int) (width : Nat),
    ((∃ m, s.params.maxBits = some m ∧ m < width) →
      exec (.tobits value width) s = failed s .capacityExceeded (.capacity .bits)) ∧
    ((∀ m, s.params.maxBits = some m → width ≤ m) → (value < 0 ∨ (2 : Int) ^ width ≤ value) →
      exec (.tobits value width) s = failed s .rangeError .empty) ∧
    ((∀ m, s.params.maxBits = some m → width ≤ m) → ∀ v : Nat, value = v → v < 2 ^ width →
      ∃ b : Bits, b.length = width ∧ (∀ i, i < width → b[i]? = some (decide (v / 2 ^ i % 2 = 1))) ∧
        exec (.tobits value width) s = succeeded s fun f => { f with vec := b })

/-- R71, R76: TOINT of a well-formed vector answers the sum of `vec[i] * 2^i`. -/
def Obligations.TointAnswersTheWeightedSum : Prop :=
  ∀ (s : State) (vec : List Nat), (∀ m, s.params.maxBits = some m → vec.length ≤ m) → (∀ e ∈ vec, e ≤ 1) →
    exec (.toint vec) s =
      succeeded s fun f => { f with uval := ∑ i ∈ Finset.range vec.length, vec.getD i 0 * 2 ^ i }

/-- R72, R76: TOTC of a well-formed vector answers the unsigned value, less `2^n` when its last element is 1 (the empty
vector has none and answers 0: the spec's own decision D13). -/
def Obligations.TotcAnswersTheSignedValue : Prop :=
  ∀ (s : State) (vec : List Nat), (∀ m, s.params.maxBits = some m → vec.length ≤ m) → (∀ e ∈ vec, e ≤ 1) →
    exec (.totc vec) s =
      succeeded s fun f =>
        { f with sval :=
            (∑ i ∈ Finset.range vec.length, (vec.getD i 0 : Int) * 2 ^ i) -
              (if vec.getLast? = some 1 then 2 ^ vec.length else 0) }

/-- R73: NBYTES: its encoding; it answers the least number of bytes that holds `n` bits, for every `n`. -/
def Obligations.NbytesAnswersTheCeiling : Prop :=
  (∀ r : CommandRecord, r.op = 0x04#8 → decode r = .ok (.nbytes r.n0)) ∧
  ∀ (s : State) (n : Nat), ∃ k, n ≤ 8 * k ∧ 8 * k < n + 8 ∧
    exec (.nbytes n) s = succeeded s fun f => { f with uval := k }

/-- R74, R76: PADBYTES of a well-formed vector answers `ceil(len / 8)` bytes, byte `j` holding elements `8j` to
`8j + 7` with element `8j + k` weighing `2^k`, and zeros beyond the end. -/
def Obligations.PadbytesAnswersTheGroups : Prop :=
  ∀ (s : State) (vec : List Nat), (∀ m, s.params.maxBits = some m → vec.length ≤ m) → (∀ e ∈ vec, e ≤ 1) →
    ∃ y : List Byte, y.length = (vec.length + 7) / 8 ∧
      (∀ j, j < y.length → (y.getD j 0#8).toNat = ∑ k ∈ Finset.range 8, vec.getD (8 * j + k) 0 * 2 ^ k) ∧
      exec (.padbytes vec) s = succeeded s fun f => { f with bytes := y }

/-- R76: the check of the operand of TOINT, TOTC and PADBYTES: CapacityExceeded first, then InvalidBitValue at the
lowest offending index; an operand of admissible length whose elements are all 0 or 1 passes, as every operand does
where elements have one bit and `MAX_BITS` is unbounded. -/
def Obligations.ConversionOperandsAreChecked : Prop :=
  ∀ (s : State) (vec : List Nat) (i : Instr), i = .toint vec ∨ i = .totc vec ∨ i = .padbytes vec →
    (∀ m, s.params.maxBits = some m → m < vec.length → exec i s = failed s .capacityExceeded (.capacity .bits)) ∧
    ((∀ m, s.params.maxBits = some m → vec.length ≤ m) → ∀ before e after, vec = before ++ e :: after →
      (∀ d ∈ before, d ≤ 1) → 1 < e → exec i s = failed s .invalidBitValue (.index before.length)) ∧
    ((∀ m, s.params.maxBits = some m → vec.length ≤ m) → (∀ e ∈ vec, e ≤ 1) →
      ∃ fields, exec i s = succeeded s fields) ∧
    (s.params.maxBits = none → s.params.elemW = some 1 → i.wf s.params = true →
      ∃ fields, exec i s = succeeded s fields)

/-- R75: the laws 1 to 5 of the conversion functions, and the derived ones. Law 3 is R75's for `1 ≤ n`; its all-zeros
half is stated of the empty vector too, where it rests on the spec's own decision D13 (log 18) and not on law 3. -/
def Obligations.ConversionLaws : Prop :=
  (∀ v w, v < 2 ^ w → toInt (toBits v w) = v) ∧
  ((∀ (v : Int) (w : Nat), inRange v w = false ↔ (v < 0 ∨ (2 : Int) ^ w ≤ v)) ∧
    ∀ (s : State) (v : Int) (w : Nat), (∀ m, s.params.maxBits = some m → w ≤ m) → (v < 0 ∨ (2 : Int) ^ w ≤ v) →
      exec (.tobits v w) s = failed s .rangeError .empty) ∧
  (∀ n, 1 ≤ n → toTwosCompInt (List.replicate n true) = -1) ∧
  (∀ n, toTwosCompInt (List.replicate n false) = 0) ∧
  ((∀ b : Bits, (toPaddedByteArr b).length = numBytesForBits b.length) ∧ toPaddedByteArr [] = []) ∧
  (numBytesForBits 0 = 0 ∧ numBytesForBits 2 = 1 ∧ numBytesForBits 7 = 1 ∧ numBytesForBits 8 = 1 ∧
    numBytesForBits 9 = 2 ∧ ∀ n, n ≤ 8 * numBytesForBits n ∧ 8 * numBytesForBits n < n + 8) ∧
  (∀ b : Bits, toBits (toInt b) b.length = b) ∧
  (∀ b : Bits, 1 ≤ b.length → toTwosCompInt b % 2 ^ b.length = toInt b ∧
    -(2 ^ (b.length - 1)) ≤ toTwosCompInt b ∧ toTwosCompInt b < 2 ^ (b.length - 1)) ∧
  ∀ b : Bits, ∑ j ∈ Finset.range (toPaddedByteArr b).length,
    ((toPaddedByteArr b).getD j 0#8).toNat * 256 ^ j = toInt b

/-- spec/40_conversions.md: the conversion commands read and write no state: a conversion's status, the fields its rule
names and its detail are the same in every state of a block with given parameters. (Of the fields that no rule names
nothing is said.) -/
def Obligations.ConversionsReadNoState : Prop :=
  ∀ (i : Instr) (p : Params), namedReg i = none →
    ∃ (e : Status) (fields : Results → Results) (d : Detail),
      ∀ s : State, s.params = p → exec i s = answered s e fields d

/-! ## Configuration -/

/-- R80: REGADD: its encoding, DuplicateName first, then CapacityExceeded, else one empty context at the end. -/
def Obligations.RegaddAppendsAContext : Prop :=
  (∀ r : CommandRecord, r.op = 0x10#8 → decode r = .ok (.regadd r.reg r.raddr (AccessMode.ofBits r.mode))) ∧
  ∀ (s : State) (reg : Name) (raddr : Nat) (mode : AccessMode),
    ((∃ c ∈ s.bank, c.name = reg) →
      exec (.regadd reg raddr mode) s = failed s .duplicateName (.named .register reg)) ∧
    ((∀ c ∈ s.bank, c.name ≠ reg) → s.params.maxRegs = some s.bank.length →
      exec (.regadd reg raddr mode) s = failed s .capacityExceeded (.capacity .regs)) ∧
    ((∀ c ∈ s.bank, c.name ≠ reg) → s.params.maxRegs ≠ some s.bank.length →
      exec (.regadd reg raddr mode) s =
        succeeded { s with bank := s.bank ++ [{ name := reg, raddr := raddr, mode := mode, segs := [] }] }
          fun f => { f with n0 := s.bank.length })

/-- R81: SEGADD on a register that exists (for one that does not, see UnknownNamesAnswerNotFound). -/
def Obligations.SegaddAppendsASegment : Prop :=
  ∀ (s : State) (reg seg : Name) (lsb msb : Nat) (before : List RegCtx) (c : RegCtx) (after : List RegCtx),
    s.bank = before ++ c :: after → (∀ d ∈ before, d.name ≠ reg) → c.name = reg →
    (msb < lsb → exec (.segadd reg seg lsb msb) s = failed s .configurationError (.pair lsb msb)) ∧
    (lsb ≤ msb → (∃ S ∈ c.segs, S.name = seg) →
      exec (.segadd reg seg lsb msb) s = failed s .duplicateName (.named .segment seg)) ∧
    (lsb ≤ msb → (∀ S ∈ c.segs, S.name ≠ seg) →
      ((∃ m, s.params.maxBits = some m ∧ m ≤ msb) →
        exec (.segadd reg seg lsb msb) s = failed s .capacityExceeded (.capacity .bits)) ∧
      ((∀ m, s.params.maxBits = some m → msb < m) → s.params.maxSegs = some c.segs.length →
        exec (.segadd reg seg lsb msb) s = failed s .capacityExceeded (.capacity .segs)) ∧
      ((∀ m, s.params.maxBits = some m → msb < m) → s.params.maxSegs ≠ some c.segs.length →
        exec (.segadd reg seg lsb msb) s =
          succeeded
            { s with
              bank := before ++
                { c with segs := c.segs ++
                    [{ name := seg, lsb := lsb, msb := msb, bits := List.replicate (msb - lsb + 1) false }] } ::
                after }
            fun f => { f with n0 := c.segs.length }))

/-- R82: REGGET answers the context's descriptor and its slot. -/
def Obligations.ReggetAnswersTheDescriptor : Prop :=
  ∀ (s : State) (reg : Name) (before : List RegCtx) (c : RegCtx) (after : List RegCtx),
    s.bank = before ++ c :: after → (∀ d ∈ before, d.name ≠ reg) → c.name = reg →
    exec (.regget reg) s =
      succeeded s fun f =>
        { f with raddr := c.raddr, mode := c.mode, uval := c.segs.length, n0 := before.length }

/-- R83: SEGGET answers the segment's window, its stored bits and its slot. -/
def Obligations.SeggetAnswersTheSegment : Prop :=
  ∀ (s : State) (reg seg : Name) (before : List RegCtx) (c : RegCtx) (after : List RegCtx)
    (front : List Segment) (S : Segment) (back : List Segment),
    s.bank = before ++ c :: after → (∀ d ∈ before, d.name ≠ reg) → c.name = reg →
    c.segs = front ++ S :: back → (∀ T ∈ front, T.name ≠ seg) → S.name = seg →
    exec (.segget reg seg) s =
      succeeded s fun f => { f with n0 := S.lsb, n1 := S.msb, vec := S.bits, uval := front.length }

/-- R84, R85: TOTBITS answers the sum of the segment widths, TOTBYTES the number of bytes for it. -/
def Obligations.TotalsAnswerTheSumOfWidths : Prop :=
  ∀ (s : State) (reg : Name) (before : List RegCtx) (c : RegCtx) (after : List RegCtx),
    s.bank = before ++ c :: after → (∀ d ∈ before, d.name ≠ reg) → c.name = reg →
    exec (.totbits reg) s =
      succeeded s (fun f => { f with uval := (c.segs.map fun S => S.msb - S.lsb + 1).sum }) ∧
    exec (.totbytes reg) s =
      succeeded s (fun f => { f with uval := ((c.segs.map fun S => S.msb - S.lsb + 1).sum + 7) / 8 })

/-- R140: a command that names no register of the bank answers NotFound for the register; one that names no segment of
its register answers NotFound for the segment. -/
def Obligations.UnknownNamesAnswerNotFound : Prop :=
  ∀ (s : State) (reg seg : Name),
    ((∀ c ∈ s.bank, c.name ≠ reg) → ∀ i : Instr, namedReg i = some reg → i.opcode ≠ .regadd →
      exec i s = failed s .notFound (.named .register reg)) ∧
    (∀ before c after, s.bank = before ++ c :: after → (∀ d ∈ before, d.name ≠ reg) → c.name = reg →
      (∀ S ∈ c.segs, S.name ≠ seg) →
      exec (.segget reg seg) s = failed s .notFound (.named .segment seg) ∧
      exec (.segint reg seg) s = failed s .notFound (.named .segment seg) ∧
      exec (.segtc reg seg) s = failed s .notFound (.named .segment seg) ∧
      (∀ vec, exec (.setbits reg seg vec) s = failed s .notFound (.named .segment seg)) ∧
      ∀ bytes, exec (.segupd reg seg bytes) s = failed s .notFound (.named .segment seg))

/-! ## Segment data -/

/-- R90: SETBITS on a segment that exists: LengthMismatch, then InvalidBitValue at the lowest offending index, else the
whole vector is replaced and nothing else of the bank. -/
def Obligations.SetbitsReplacesTheVector : Prop :=
  ∀ (s : State) (reg seg : Name) (vec : List Nat) (before : List RegCtx) (c : RegCtx) (after : List RegCtx)
    (front : List Segment) (S : Segment) (back : List Segment),
    s.bank = before ++ c :: after → (∀ d ∈ before, d.name ≠ reg) → c.name = reg →
    c.segs = front ++ S :: back → (∀ T ∈ front, T.name ≠ seg) → S.name = seg →
    (vec.length ≠ S.msb - S.lsb + 1 →
      exec (.setbits reg seg vec) s = failed s .lengthMismatch (.pair (S.msb - S.lsb + 1) vec.length)) ∧
    (vec.length = S.msb - S.lsb + 1 → ∀ head e tail, vec = head ++ e :: tail → (∀ d ∈ head, d ≤ 1) → 1 < e →
      exec (.setbits reg seg vec) s = failed s .invalidBitValue (.index head.length)) ∧
    (vec.length = S.msb - S.lsb + 1 → (∀ e ∈ vec, e ≤ 1) →
      exec (.setbits reg seg vec) s =
        succeeded
          { s with
            bank := before ++
              { c with segs := front ++ { S with bits := vec.map fun e => decide (e = 1) } :: back } :: after }
          id)

/-- R91, R94: SEGUPD on a segment that exists: CapacityExceeded, then InsufficientData, else the segment's bits become
its window of the bytes, local index `i` being bit `(lsb + i) mod 8` of byte `(lsb + i) div 8`, and nothing else of the
bank changes. -/
def Obligations.SegupdStoresTheWindow : Prop :=
  ∀ (s : State) (reg seg : Name) (y : List Byte) (before : List RegCtx) (c : RegCtx) (after : List RegCtx)
    (front : List Segment) (S : Segment) (back : List Segment),
    s.bank = before ++ c :: after → (∀ d ∈ before, d.name ≠ reg) → c.name = reg →
    c.segs = front ++ S :: back → (∀ T ∈ front, T.name ≠ seg) → S.name = seg →
    ((∃ m, s.params.maxBytes = some m ∧ m < y.length) →
      exec (.segupd reg seg y) s = failed s .capacityExceeded (.capacity .bytes)) ∧
    ((∀ m, s.params.maxBytes = some m → y.length ≤ m) → y.length < S.msb / 8 + 1 →
      exec (.segupd reg seg y) s = failed s .insufficientData (.insufficient seg (S.msb / 8 + 1) y.length)) ∧
    ((∀ m, s.params.maxBytes = some m → y.length ≤ m) → S.msb / 8 + 1 ≤ y.length →
      ∃ b : Bits, b.length = S.msb - S.lsb + 1 ∧
        (∀ i, i < b.length →
          b[i]? = some (decide ((y.getD ((S.lsb + i) / 8) 0#8).toNat / 2 ^ ((S.lsb + i) % 8) % 2 = 1))) ∧
        exec (.segupd reg seg y) s =
          succeeded
            { s with bank := before ++ { c with segs := front ++ { S with bits := b } :: back } :: after } id)

/-- R92, R93: SEGINT and SEGTC answer the unsigned and the two's-complement value of the stored vector. -/
def Obligations.SegintAndSegtcDecodeTheVector : Prop :=
  ∀ (s : State) (reg seg : Name) (before : List RegCtx) (c : RegCtx) (after : List RegCtx)
    (front : List Segment) (S : Segment) (back : List Segment),
    s.bank = before ++ c :: after → (∀ d ∈ before, d.name ≠ reg) → c.name = reg →
    c.segs = front ++ S :: back → (∀ T ∈ front, T.name ≠ seg) → S.name = seg →
    exec (.segint reg seg) s =
      succeeded s (fun f =>
        { f with uval := ∑ i ∈ Finset.range S.bits.length, (S.bits.getD i false).toNat * 2 ^ i }) ∧
    exec (.segtc reg seg) s =
      succeeded s (fun f =>
        { f with sval := (∑ i ∈ Finset.range S.bits.length, ((S.bits.getD i false).toNat : Int) * 2 ^ i) -
            (if S.bits.getLast? = some true then 2 ^ S.bits.length else 0) })

/-! ## Transfers and the checker -/

/-- R100: a READ whose register is Readable, whose transport is ready and answers success with bytes that cover every
window: one `TRead` of `ceil(total_bits / 8)` bytes, and every segment takes its window. -/
def Obligations.ReadUnpacksEverySegment : Prop :=
  ∀ (s : State) (reg : Name) (before : List RegCtx) (c : RegCtx) (after : List RegCtx) (n : Nat)
    (a : TransportAnswer) (rest : List TransportAnswer),
    s.bank = before ++ c :: after → (∀ d ∈ before, d.name ≠ reg) → c.name = reg →
    c.mode.readable = true → n = ((c.segs.map fun S => S.msb - S.lsb + 1).sum + 7) / 8 →
    (∀ m, s.params.maxBytes = some m → n ≤ m) →
    s.treqReady = true → s.answers.drop s.stale = a :: rest → a.status s.params = 0 →
    (∀ S ∈ c.segs, S.msb / 8 + 1 ≤ a.rbytes.length) →
    exec (.read reg) s =
      succeeded
        { s with
          bank := before ++
            { c with segs := c.segs.map fun S =>
                { S with bits := (List.range (S.msb - S.lsb + 1)).map fun i =>
                    (a.rbytes.getD ((S.lsb + i) / 8) 0#8).getLsbD ((S.lsb + i) % 8) } } :: after
          calls := s.calls ++ [.readBytes s.devAddr c.raddr n]
          answers := rest
          stale := 0 }
        id

/-- R100: a READ whose answer leaves a window uncovered: the segments before the first uncovered one in slot order hold
their new bits, that one and all later ones keep theirs, and the response says which and by how much. -/
def Obligations.ReadStopsAtTheFirstUncoveredSegment : Prop :=
  ∀ (s : State) (reg : Name) (before : List RegCtx) (c : RegCtx) (after : List RegCtx)
    (front : List Segment) (S : Segment) (back : List Segment) (n : Nat)
    (a : TransportAnswer) (rest : List TransportAnswer),
    s.bank = before ++ c :: after → (∀ d ∈ before, d.name ≠ reg) → c.name = reg →
    c.mode.readable = true → n = ((c.segs.map fun T => T.msb - T.lsb + 1).sum + 7) / 8 →
    (∀ m, s.params.maxBytes = some m → n ≤ m) →
    s.treqReady = true → s.answers.drop s.stale = a :: rest → a.status s.params = 0 →
    c.segs = front ++ S :: back → (∀ T ∈ front, T.msb / 8 + 1 ≤ a.rbytes.length) → a.rbytes.length < S.msb / 8 + 1 →
    exec (.read reg) s =
      failed
        { s with
          bank := before ++
            { c with segs :=
                (front.map fun T =>
                  { T with bits := (List.range (T.msb - T.lsb + 1)).map fun i =>
                      (a.rbytes.getD ((T.lsb + i) / 8) 0#8).getLsbD ((T.lsb + i) % 8) }) ++ S :: back } :: after
          calls := s.calls ++ [.readBytes s.devAddr c.raddr n]
          answers := rest
          stale := 0 }
        .insufficientData (.insufficient S.name (S.msb / 8 + 1) a.rbytes.length)

/-- R100, R145: the errors of a READ before and at the transport: AccessDenied and CapacityExceeded make no call,
TransportError makes one, and none changes a segment. -/
def Obligations.ReadErrorsChangeNoSegment : Prop :=
  ∀ (s : State) (reg : Name) (before : List RegCtx) (c : RegCtx) (after : List RegCtx) (n : Nat),
    s.bank = before ++ c :: after → (∀ d ∈ before, d.name ≠ reg) → c.name = reg →
    n = ((c.segs.map fun S => S.msb - S.lsb + 1).sum + 7) / 8 →
    (c.mode.readable = false → exec (.read reg) s = failed s .accessDenied .empty) ∧
    (c.mode.readable = true → (∃ m, s.params.maxBytes = some m ∧ m < n) →
      exec (.read reg) s = failed s .capacityExceeded (.capacity .bytes)) ∧
    (c.mode.readable = true → (∀ m, s.params.maxBytes = some m → n ≤ m) → s.treqReady = true →
      ∀ a rest, s.answers.drop s.stale = a :: rest → a.status s.params ≠ 0 →
      exec (.read reg) s =
        failed
          { s with calls := s.calls ++ [.readBytes s.devAddr c.raddr n], answers := rest, stale := 0 }
          .transportError (.tstatus (a.status s.params)))

/-- R101, R103, R35: a WRITE of a legal register whose windows partition `[0..M]`, whose mode is Writable and whose
transport is ready: one `TWrite` of `M div 8 + 1` bytes that hold every segment's bit `i` at global bit `lsb + i` and 0
above `M`; success answers `OK`, any other status TransportError; the bank is unchanged. -/
def Obligations.WriteSendsThePackedSegments : Prop :=
  ∀ (s : State) (reg : Name) (before : List RegCtx) (c : RegCtx) (after : List RegCtx) (M : Nat)
    (a : TransportAnswer) (rest : List TransportAnswer),
    s.bank = before ++ c :: after → (∀ d ∈ before, d.name ≠ reg) → c.name = reg →
    c.mode.writable = true → (∀ S ∈ c.segs, S.lsb ≤ S.msb ∧ S.bits.length = S.msb - S.lsb + 1) →
    IsMaxBit c.segs M → Partitions c.segs M →
    s.treqReady = true → s.answers.drop s.stale = a :: rest →
    ∃ y : List Byte, y.length = M / 8 + 1 ∧
      (∀ S ∈ c.segs, ∀ i, i < S.bits.length →
        (y.getD ((S.lsb + i) / 8) 0#8).getLsbD ((S.lsb + i) % 8) = S.bits.getD i false) ∧
      (∀ g, M < g → (y.getD (g / 8) 0#8).getLsbD (g % 8) = false) ∧
      (a.status s.params = 0 →
        exec (.write reg) s =
          succeeded
            { s with calls := s.calls ++ [.writeBytes s.devAddr c.raddr y], answers := rest, stale := 0 } id) ∧
      (a.status s.params ≠ 0 →
        exec (.write reg) s =
          failed
            { s with calls := s.calls ++ [.writeBytes s.devAddr c.raddr y], answers := rest, stale := 0 }
            .transportError (.tstatus (a.status s.params)))

/-- R101, R102: what a WRITE refuses, in order: AccessDenied, EmptyRegister, ContinuityError with the unowned bits of
`[0..M]` ascending, OverlapError with the bits of two or more owners ascending, each with its owners in slot order. No
call is made and nothing changes. -/
def Obligations.WriteRefusesBadLayouts : Prop :=
  ∀ (s : State) (reg : Name) (before : List RegCtx) (c : RegCtx) (after : List RegCtx) (M : Nat),
    s.bank = before ++ c :: after → (∀ d ∈ before, d.name ≠ reg) → c.name = reg →
    (c.mode.writable = false → exec (.write reg) s = failed s .accessDenied .empty) ∧
    (c.mode.writable = true → c.segs = [] → exec (.write reg) s = failed s .emptyRegister .empty) ∧
    (c.mode.writable = true → IsMaxBit c.segs M →
      (∃ g, g ≤ M ∧ ∀ S ∈ c.segs, ¬(S.lsb ≤ g ∧ g ≤ S.msb)) →
      ∃ l : List Nat, l.Pairwise (· < ·) ∧
        (∀ g, g ∈ l ↔ g ≤ M ∧ ∀ S ∈ c.segs, ¬(S.lsb ≤ g ∧ g ≤ S.msb)) ∧
        exec (.write reg) s = failed s .continuityError (.gaps l)) ∧
    (c.mode.writable = true → IsMaxBit c.segs M →
      (∀ g, g ≤ M → ∃ S ∈ c.segs, S.lsb ≤ g ∧ g ≤ S.msb) → ¬ Partitions c.segs M →
      ∃ l : List (Nat × List Name), (l.map Prod.fst).Pairwise (· < ·) ∧
        (∀ g names, (g, names) ∈ l ↔ g ≤ M ∧ 2 ≤ names.length ∧
          names = (c.segs.filter fun S => decide (S.lsb ≤ g ∧ g ≤ S.msb)).map Segment.name) ∧
        exec (.write reg) s = failed s .overlapError (.conflicts l))

/-- R102 (g): the checker passes exactly the layouts whose windows partition `[0..M]`. -/
def Obligations.CheckerPassesExactlyThePartitions : Prop :=
  ∀ (segs : List Segment) (M : Nat), IsMaxBit segs M → (layoutError segs = none ↔ Partitions segs M)

/-- R84, R105: when the windows partition `[0..M]` the segment widths sum to `M + 1`, so a READ asks for as many bytes
as a WRITE sends. -/
def Obligations.PartitionWidthsSumToTheRegister : Prop :=
  ∀ (segs : List Segment) (M : Nat), (∀ S ∈ segs, S.lsb ≤ S.msb) → IsMaxBit segs M → Partitions segs M →
    totalBits segs = M + 1 ∧ totalBytes segs = M / 8 + 1 ∧ (pack segs).length = M / 8 + 1

/-- R106: a WRITE followed by a READ that is answered with the bytes the WRITE sent leaves every segment with the bits
it had: the window of every segment in the packed bytes is its stored vector. -/
def Obligations.WriteThenReadRoundTrips : Prop :=
  ∀ (s : State) (reg : Name) (c : RegCtx) (M : Nat) (y : List Byte) (a : TransportAnswer)
    (rest : List TransportAnswer),
    s.Legal → s.findReg reg = some c → c.mode.readable = true → c.mode.writable = true →
    IsMaxBit c.segs M → Partitions c.segs M → s.treqReady = true →
    s.answers.drop s.stale = a :: { tstatus := 0, rbytes := y } :: rest → a.status s.params = 0 →
    (∀ S ∈ c.segs, extract S.lsb S.msb (pack c.segs) = S.bits) ∧
    ∃ t sent, exec (.write reg) s = .next t ∧ t.status = some .ok ∧
      t.calls = s.calls ++ [.writeBytes s.devAddr c.raddr sent] ∧
      (y = sent →
        ∃ u, exec (.read reg) t = .next u ∧ u.status = some .ok ∧
          u.calls = t.calls ++ [.readBytes s.devAddr c.raddr sent.length] ∧ u.bank = s.bank)

/-! ## The transport boundary -/

/-- R38, R44, R46: a READ that passes its checks, and a WRITE that passes its, offer their one request, of kind 0 and of
kind 1, while the transport is not ready, and wait once it has taken the request and not answered; nothing else
changes. -/
def Obligations.TransfersWaitForTheTransport : Prop :=
  ∀ (s : State) (i : Instr) (q : TransportRequest) (reg : Name)
    (before : List RegCtx) (c : RegCtx) (after : List RegCtx),
    s.bank = before ++ c :: after → (∀ d ∈ before, d.name ≠ reg) → c.name = reg →
    ((i = .read reg ∧ c.mode.readable = true ∧
        ∃ n, n = ((c.segs.map fun S => S.msb - S.lsb + 1).sum + 7) / 8 ∧
          (∀ m, s.params.maxBytes = some m → n ≤ m) ∧ q = .readBytes s.devAddr c.raddr n) ∨
      (i = .write reg ∧ c.mode.writable = true ∧
        (∃ M, IsMaxBit c.segs M ∧ Partitions c.segs M) ∧ q = .writeBytes s.devAddr c.raddr (pack c.segs))) →
    ((q.kind = 0 ∧ i = .read reg) ∨ (q.kind = 1 ∧ i = .write reg)) ∧
    (s.treqReady = false → exec i s = .next { s with phase := .requesting { reg := reg, request := q } }) ∧
    (s.treqReady = true → s.answers.drop s.stale = [] →
      exec i s = .next { s with phase := .waiting { reg := reg, request := q }, calls := s.calls ++ [q] })

/-- R38, R41: no command but READ and WRITE touches the transport's channels. A READ makes at most one call, a
`read_bytes`; a WRITE at most one, a `write_bytes`. -/
def Obligations.OnlyReadAndWriteCallTheTransport : Prop :=
  ∀ (i : Instr) (s t : State), exec i s = .next t →
    (usesTransport i = false → t.calls = s.calls ∧ t.answers = s.answers ∧ t.stale = s.stale) ∧
    (∀ reg, i = .read reg → t.calls = s.calls ∨ ∃ dev ra n, t.calls = s.calls ++ [.readBytes dev ra n]) ∧
    (∀ reg, i = .write reg → t.calls = s.calls ∨ ∃ dev ra y, t.calls = s.calls ++ [.writeBytes dev ra y])

/-- R39: a step makes at most one transport call and the call follows all earlier ones; a call carries the strap. -/
def Obligations.CallsAppearOneAtATime : Prop :=
  ∀ s t : State, s.Legal → step s = .next t →
    t.calls = s.calls ∨
    (∃ ra n, t.calls = s.calls ++ [.readBytes s.devAddr ra n]) ∨
    ∃ ra y, t.calls = s.calls ++ [.writeBytes s.devAddr ra y]

/-- R46, R38: while the transport is not ready the request stays offered and is no call; when it is ready the request
passes, is one call, and the block goes on as one that waits for the answer. -/
def Obligations.RequestsPassByHandshake : Prop :=
  ∀ (s : State) (x : Transfer), s.rst = false → s.phase = .requesting x →
    (s.treqReady = false → step s = .next s) ∧
    (s.treqReady = true →
      (s.answers.drop s.stale = [] →
        step s = .next { s with phase := .waiting x, calls := s.calls ++ [x.request] }) ∧
      (s.answers.drop s.stale ≠ [] →
        step s = step { s with phase := .waiting x, calls := s.calls ++ [x.request] }))

/-- R44: a transfer whose answer does not come waits without limit: any number of steps changes nothing. -/
def Obligations.SilentTransportHangsTheBlock : Prop :=
  ∀ (s : State) (x : Transfer) (n : Nat), s.rst = false → s.phase = .waiting x → s.answers.drop s.stale = [] →
    Host.Core.run Sys2Proof.core n s = .next s

/-- R44, R100, R101: the answer ends the wait, and the command ends as its rule says: TransportError on a status other
than 0; a WRITE with `OK`; a READ with its segments updated in slot order up to the first that the bytes do not cover. -/
def Obligations.AnswerEndsTheWait : Prop :=
  ∀ (s : State) (x : Transfer) (a : TransportAnswer) (rest : List TransportAnswer),
    s.rst = false → s.phase = .waiting x → s.answers.drop s.stale = a :: rest →
    (a.status s.params ≠ 0 →
      step s = failed { s with answers := rest, stale := 0 } .transportError (.tstatus (a.status s.params))) ∧
    (a.status s.params = 0 → (∃ dev ra y, x.request = .writeBytes dev ra y) →
      step s = succeeded { s with answers := rest, stale := 0 } id) ∧
    (a.status s.params = 0 → (∃ dev ra n, x.request = .readBytes dev ra n) →
      ∀ before c after, s.bank = before ++ c :: after → (∀ d ∈ before, d.name ≠ x.reg) → c.name = x.reg →
        ((∀ S ∈ c.segs, S.msb / 8 + 1 ≤ a.rbytes.length) →
          step s =
            succeeded
              { s with
                bank := before ++
                  { c with segs := c.segs.map fun S =>
                      { S with bits := (List.range (S.msb - S.lsb + 1)).map fun i =>
                          (a.rbytes.getD ((S.lsb + i) / 8) 0#8).getLsbD ((S.lsb + i) % 8) } } :: after
                answers := rest
                stale := 0 }
              id) ∧
        (∀ front S back, c.segs = front ++ S :: back → (∀ T ∈ front, T.msb / 8 + 1 ≤ a.rbytes.length) →
          a.rbytes.length < S.msb / 8 + 1 →
          step s =
            failed
              { s with
                bank := before ++
                  { c with segs :=
                      (front.map fun T =>
                        { T with bits := (List.range (T.msb - T.lsb + 1)).map fun i =>
                            (a.rbytes.getD ((T.lsb + i) / 8) 0#8).getLsbD ((T.lsb + i) % 8) }) ++ S :: back } :: after
                answers := rest
                stale := 0 }
              .insufficientData (.insufficient S.name (S.msb / 8 + 1) a.rbytes.length)))

/-! ## Errors, responses and reset -/

/-- R136: a command answers `OK` or an error kind of its row in the table, never one of a blank cell; so does a READ or
WRITE whose transport answers later. -/
def Obligations.CommandsRaiseOnlyTheirKinds : Prop :=
  (∀ (i : Instr) (s t : State) (e : Status), exec i s = .next t → t.status = some e → e = .ok ∨ e ∈ mayRaise i) ∧
  ∀ (s t : State) (x : Transfer) (e : Status), s.rst = false → s.phase = .requesting x ∨ s.phase = .waiting x →
    step s = .next t → t.status = some e →
    ((∃ dev ra n, x.request = .readBytes dev ra n) → e = .ok ∨ e ∈ mayRaise (.read x.reg)) ∧
    ((∃ dev ra y, x.request = .writeBytes dev ra y) → e = .ok ∨ e ∈ mayRaise (.write x.reg))

/-- R138, R139: a command that ends in an error leaves the bank as it was, but for a READ that ends in
InsufficientData. -/
def Obligations.ErrorsLeaveTheBankUnchanged : Prop :=
  ∀ (i : Instr) (s t : State) (e : Status), exec i s = .next t → t.status = some e → e ≠ .ok →
    t.bank = s.bank ∨ (e = .insufficientData ∧ ∃ reg, i = .read reg)

/-- R4, R147: with every capacity unbounded no command answers CapacityExceeded. -/
def Obligations.UnboundedBlocksNeverExceed : Prop :=
  ∀ (i : Instr) (s t : State),
    s.params.maxRegs = none → s.params.maxSegs = none → s.params.maxBits = none → s.params.maxBytes = none →
    exec i s = .next t → t.status ≠ some .capacityExceeded

/-- R146: with elements of one bit no accepted command answers InvalidBitValue. -/
def Obligations.OneBitElementsAreNeverInvalid : Prop :=
  ∀ s t : State, s.params.elemW = some 1 → s.phase = .idle → s.rst = false → step s = .next t →
    t.status ≠ some .invalidBitValue

/-- R57: the status codes: 15 distinct codes, `0x00` to `0x0E`, in the order of the table. -/
def Obligations.StatusCodesFollowTheTable : Prop :=
  [Status.ok, .configurationError, .lengthMismatch, .invalidBitValue, .rangeError, .notFound, .duplicateName,
    .accessDenied, .insufficientData, .continuityError, .overlapError, .transportError, .capacityExceeded,
    .emptyRegister, .illegalCommand].map (fun e => e.code.toNat) = List.range 15 ∧
  ∀ e : Status, e.code ≤ 0x0E#8

/-- R55: the AccessMode encoding. -/
def Obligations.AccessModeBits : Prop :=
  AccessMode.ofBits 0b00#2 = { readable := false, writable := false } ∧
  AccessMode.ofBits 0b01#2 = { readable := true, writable := false } ∧
  AccessMode.ofBits 0b10#2 = { readable := false, writable := true } ∧
  AccessMode.ofBits 0b11#2 = { readable := true, writable := true } ∧
  ∀ m : AccessMode, AccessMode.ofBits m.toBits = m

/-- R56, R166: out of reset every accepted command gets exactly one response, and no command is accepted before the
response to the one before has been taken. -/
def Obligations.OneResponsePerCommand : Prop :=
  ∀ s t : State, s.rst = false → step s = .next t →
    t.commands.length + t.busy.toNat + t.responses.length =
      s.commands.length + s.busy.toNat + s.responses.length ∧
    (s.busy = true → t.commands = s.commands) ∧ (s.busy = false → t.responses = s.responses)

/-- R166, R138: a finished command's response stays offered until the host takes it, and the block is then ready for
the next command; nothing else changes. -/
def Obligations.ResponsesPassByHandshake : Prop :=
  ∀ (s : State) (r : Response), s.rst = false → s.phase = .responding r →
    (s.respReady = false → step s = .next s) ∧
    (s.respReady = true → step s = .next { s with phase := .idle, responses := s.responses ++ [r] })

/-- R161 to R163: with `rst` high a step accepts nothing, sends nothing and leaves the reset state: an empty bank and
no command in flight. The answer owed to a request that was waiting is discarded. (What is kept of the channels and of
the model's own fields is the model's choice, log 10.) -/
def Obligations.ResetEmptiesTheBank : Prop :=
  ∀ s : State, s.rst = true →
    ∃ k, step s = .next { s with bank := [], phase := .idle, stale := k } ∧
      ((∃ x, s.phase = .waiting x) → k = s.stale + 1) ∧ ((∀ x, s.phase ≠ .waiting x) → k = s.stale)

/-- R163: a reset abandons a transfer that waits; the late answer to it is discarded, so the next READ's answer is the
one after it. -/
def Obligations.LateAnswersAreDiscarded : Prop :=
  ∀ (s t : State) (x : Transfer) (late a : TransportAnswer) (rest : List TransportAnswer),
    s.rst = true → s.phase = .waiting x → s.stale = 0 → s.answers = late :: a :: rest → step s = .next t →
    ∃ t', t.takeAnswer = some (a, t') ∧ t'.answers = rest ∧ t'.stale = 0 ∧ t'.bank = []

/-- R27: the state right after reset, for any parameters and strap: an empty bank, no command in flight, `rst` low, the
strap's value. The channels' reset values are the model's choice (log 8, log 9). -/
def Obligations.ResetStateIsTheEmptyBank : Prop :=
  ∀ (p : Params) (dev : Nat),
    (State.resetWith p dev).bank = [] ∧ (State.resetWith p dev).phase = .idle ∧ (State.resetWith p dev).rst = false ∧
    (State.resetWith p dev).devAddr = dev ∧ (State.resetWith p dev).params = p ∧
    ∀ reg, (State.resetWith p dev).findReg reg = none

/-! ## Invariants over every step -/

/-- R11, R17, R19, R21, R24: every step, from any legal state, leads to a legal state. In particular (R32, R46, R58) the
status word in the detail of a TransportError has `TSTAT_W` bits. -/
def Obligations.StepKeepsLegalStates : Prop :=
  ∀ s t : State, s.Legal → step s = .next t → t.Legal

/-- R4, R27: the state right after reset is legal, for any parameters that meet R4's constraints and any strap of `DEV_W`
bits. -/
def Obligations.ResetStateIsLegal : Prop :=
  ∀ (p : Params) (dev : Nat), p.wf = true → fits p.devW dev = true → (State.resetWith p dev).Legal

/-- R26, R15, R19: out of reset no step removes a register or a segment or moves it to another slot, and none changes a
name, an address, a mode, an `lsb` or an `msb`. -/
def Obligations.NothingIsEverRemoved : Prop :=
  ∀ s t : State, s.rst = false → step s = .next t →
    ∀ (k : Nat) (c : RegCtx), s.bank[k]? = some c →
      ∃ c' : RegCtx, t.bank[k]? = some c' ∧ c'.name = c.name ∧ c'.raddr = c.raddr ∧ c'.mode = c.mode ∧
        ∀ (j : Nat) (S : Segment), c.segs[j]? = some S →
          ∃ S' : Segment, c'.segs[j]? = some S' ∧ S'.name = S.name ∧ S'.lsb = S.lsb ∧ S'.msb = S.msb

/-- R20: only REGADD, SEGADD, SETBITS, SEGUPD and READ change the bank; every other command leaves it as it is. -/
def Obligations.OnlyFiveCommandsChangeTheBank : Prop :=
  ∀ (i : Instr) (s t : State), exec i s = .next t → t.bank ≠ s.bank →
    i.opcode = .regadd ∨ i.opcode = .segadd ∨ i.opcode = .setbits ∨ i.opcode = .segupd ∨ i.opcode = .read

/-- R20, R21: a command changes no register but the one it names; SETBITS and SEGUPD change no segment but the one they
name. -/
def Obligations.OtherRegistersAreUntouched : Prop :=
  ∀ (i : Instr) (s t : State), exec i s = .next t →
    (∀ (k : Nat) (c : RegCtx), s.bank[k]? = some c → namedReg i ≠ some c.name → t.bank[k]? = some c) ∧
    (∀ reg seg, ((∃ vec, i = .setbits reg seg vec) ∨ ∃ y, i = .segupd reg seg y) →
      ∀ (k : Nat) (c : RegCtx), s.bank[k]? = some c →
        ∃ c' : RegCtx, t.bank[k]? = some c' ∧ c'.segs.length = c.segs.length ∧
          ∀ (j : Nat) (S : Segment), c.segs[j]? = some S → S.name ≠ seg → c'.segs[j]? = some S)

/-- R4, R18: no step changes the parameters or the strap. -/
def Obligations.ParametersAndStrapAreConstant : Prop :=
  ∀ s t : State, step s = .next t → t.params = s.params ∧ t.devAddr = s.devAddr

/-! ## The host's sequences -/

/-- R120, R166: issuing a command is what its two steps do: the block accepts and runs it, and the host takes the
response. -/
def Obligations.IssueIsTwoSteps : Prop :=
  ∀ (i : Instr) (s u : State) (r : Response) (rest : List CommandRecord),
    s.rst = false → s.phase = .idle → s.respReady = true → i.wf s.params = true → s.commands = encode i :: rest →
    issue i { s with commands := rest } = some (r, u) → Host.Core.run Sys2Proof.core 2 s = .next u

/-- R128: BANK.SETINT of a value that does not fit the segment answers RangeError and changes no bit; of one that fits,
without the write, it stores the bits of that value. -/
def Obligations.BankSetintStoresOrRefuses : Prop :=
  ∀ (s : State) (reg seg : Name) (value : Int) (writeAfter : Bool) (writeFn : Name → HostSequence)
    (before : List RegCtx) (c : RegCtx) (after : List RegCtx)
    (front : List Segment) (S : Segment) (back : List Segment),
    s.bank = before ++ c :: after → (∀ d ∈ before, d.name ≠ reg) → c.name = reg →
    c.segs = front ++ S :: back → (∀ T ∈ front, T.name ≠ seg) → S.name = seg →
    S.lsb ≤ S.msb → (∀ m, s.params.maxBits = some m → S.msb < m) →
    ((value < 0 ∨ (2 : Int) ^ (S.msb - S.lsb + 1) ≤ value) →
      ∃ r t, bankSetint reg seg value writeAfter writeFn s = some (r, t) ∧ r.status = .rangeError ∧
        t.bank = s.bank ∧ t.calls = s.calls) ∧
    ((0 ≤ value ∧ value < (2 : Int) ^ (S.msb - S.lsb + 1)) →
      ∃ r t b, bankSetint reg seg value false writeFn s = some (r, t) ∧ r.status = .ok ∧ t.calls = s.calls ∧
        t.bank = before ++ { c with segs := front ++ { S with bits := b } :: back } :: after ∧
        b.length = S.msb - S.lsb + 1 ∧ (toInt b : Int) = value)

/-- R127, R126, R120: BANK.SETBITS is SETBITS and then, only on request and after an `OK`, the write strategy, by default
the one command WRITE. A write that fails does not undo the set. Of any strategy the first error is the outcome. -/
def Obligations.BankSetbitsKeepsTheNewBits : Prop :=
  ∀ (s t : State) (reg seg : Name) (vec : List Nat) (r : Response),
    issue (.setbits reg seg vec) s = some (r, t) →
    bankSetbits reg seg vec (s := s) = some (r, t) ∧
    (r.status ≠ .ok → ∀ (writeAfter : Bool) (writeFn : Name → HostSequence),
      bankSetbits reg seg vec writeAfter writeFn s = some (r, t)) ∧
    (r.status = .ok →
      bankSetbits reg seg vec true (s := s) = issue (.write reg) t ∧
      (∀ r' u, bankSetbits reg seg vec true (s := s) = some (r', u) → u.bank = t.bank) ∧
      ∀ (writeFn : Name → HostSequence) (i : Instr) (next : Response → HostSequence) (r' : Response) (u : State),
        writeFn reg = .command i next → issue i t = some (r', u) →
        (r'.status ≠ .ok → bankSetbits reg seg vec true writeFn s = some (r', u)) ∧
        (r'.status = .ok → bankSetbits reg seg vec true writeFn s = runSequence (next r') r' u))

/-- R122, R124, R125: with `read_first` false, the default, BANK.GET, BANK.TOINT and BANK.TOTC are exactly REGGET, SEGINT
and SEGTC, make no call and change no bit; with `read_first` true the READ comes first, and its error is the outcome. -/
def Obligations.AccessorsReadFirstOnRequest : Prop :=
  ∀ (s t : State) (reg seg : Name) (r : Response),
    (bankGet reg (s := s) = issue (.regget reg) s ∧ bankToint reg seg (s := s) = issue (.segint reg seg) s ∧
      bankTotc reg seg (s := s) = issue (.segtc reg seg) s) ∧
    (bankGet reg false s = some (r, t) ∨ bankToint reg seg false s = some (r, t) ∨
        bankTotc reg seg false s = some (r, t) →
      t.calls = s.calls ∧ t.bank = s.bank) ∧
    (issue (.read reg) s = some (r, t) → r.status ≠ .ok →
      bankToint reg seg true s = some (r, t) ∧ bankTotc reg seg true s = some (r, t) ∧
        bankGet reg true s = some (r, t)) ∧
    (issue (.read reg) s = some (r, t) → r.status = .ok →
      bankToint reg seg true s = issue (.segint reg seg) t ∧ bankTotc reg seg true s = issue (.segtc reg seg) t ∧
        bankGet reg true s = issue (.regget reg) t)

/-- R121, R120: BANK.ADD of a name the bank has answers DuplicateName and adds nothing; of a new name in a full bank,
CapacityExceeded and nothing; otherwise it adds the register with the segments before the first that SEGADD refuses, all
zero, and answers what SEGADD of that one answers; with none refused it adds them all and answers `OK`. -/
def Obligations.BankAddIsNotAtomic : Prop :=
  ∀ (s : State) (reg : Name) (raddr : Nat) (mode : AccessMode) (segs : List (Name × Nat × Nat)),
    ((∃ c ∈ s.bank, c.name = reg) →
      ∃ r t, bankAdd reg raddr mode segs s = some (r, t) ∧ r.status = .duplicateName ∧
        r.detail = .named .register reg ∧ t.bank = s.bank) ∧
    ((∀ c ∈ s.bank, c.name ≠ reg) → s.params.maxRegs = some s.bank.length →
      ∃ r t, bankAdd reg raddr mode segs s = some (r, t) ∧ r.status = .capacityExceeded ∧
        r.detail = .capacity .regs ∧ t.bank = s.bank) ∧
    ((∀ c ∈ s.bank, c.name ≠ reg) → s.params.maxRegs ≠ some s.bank.length →
      ∃ r t c, bankAdd reg raddr mode segs s = some (r, t) ∧ t.bank = s.bank ++ [c] ∧
        c.name = reg ∧ c.raddr = raddr ∧ c.mode = mode ∧
        c.segs = (segs.take c.segs.length).map (fun e =>
          { name := e.1, lsb := e.2.1, msb := e.2.2, bits := List.replicate (e.2.2 - e.2.1 + 1) false }) ∧
        ((r.status = .ok ∧ c.segs.length = segs.length) ∨
          (r.status ≠ .ok ∧ ∃ e u, segs[c.segs.length]? = some e ∧ u.bank = s.bank ++ [c] ∧ u.params = s.params ∧
            issue (.segadd reg e.1 e.2.1 e.2.2) u = some (r, t))))
end

