-- ==== Sys2Proof/Laws/State.lean ====
section
/-! SUPPORT. Laws/State.lean: what each update of the state does to each field. -/

namespace Sys2Proof.Machine

@[simp] theorem State.respond_params (s : State) (r : Response) : (s.respond r).params = s.params := rfl
@[simp] theorem State.respond_devAddr (s : State) (r : Response) : (s.respond r).devAddr = s.devAddr := rfl
@[simp] theorem State.respond_bank (s : State) (r : Response) : (s.respond r).bank = s.bank := rfl
@[simp] theorem State.respond_phase (s : State) (r : Response) : (s.respond r).phase = .responding r := rfl
@[simp] theorem State.respond_rst (s : State) (r : Response) : (s.respond r).rst = s.rst := rfl
@[simp] theorem State.respond_commands (s : State) (r : Response) : (s.respond r).commands = s.commands := rfl
@[simp] theorem State.respond_respReady (s : State) (r : Response) : (s.respond r).respReady = s.respReady := rfl
@[simp] theorem State.respond_responses (s : State) (r : Response) : (s.respond r).responses = s.responses := rfl
@[simp] theorem State.respond_treqReady (s : State) (r : Response) : (s.respond r).treqReady = s.treqReady := rfl
@[simp] theorem State.respond_calls (s : State) (r : Response) : (s.respond r).calls = s.calls := rfl
@[simp] theorem State.respond_answers (s : State) (r : Response) : (s.respond r).answers = s.answers := rfl
@[simp] theorem State.respond_stale (s : State) (r : Response) : (s.respond r).stale = s.stale := rfl
@[simp] theorem State.respond_freeCount (s : State) (r : Response) : (s.respond r).freeCount = s.freeCount + 1 := rfl

@[simp] theorem State.updateSegs_params (s : State) (reg : Name) (f : List Segment → List Segment) : (s.updateSegs reg f).params = s.params := rfl
@[simp] theorem State.updateSegs_devAddr (s : State) (reg : Name) (f : List Segment → List Segment) : (s.updateSegs reg f).devAddr = s.devAddr := rfl
@[simp] theorem State.updateSegs_bank (s : State) (reg : Name) (f : List Segment → List Segment) : (s.updateSegs reg f).bank = modifyFirst (fun c => c.name == reg) (fun c => { c with segs := f c.segs }) s.bank := rfl
@[simp] theorem State.updateSegs_phase (s : State) (reg : Name) (f : List Segment → List Segment) : (s.updateSegs reg f).phase = s.phase := rfl
@[simp] theorem State.updateSegs_rst (s : State) (reg : Name) (f : List Segment → List Segment) : (s.updateSegs reg f).rst = s.rst := rfl
@[simp] theorem State.updateSegs_commands (s : State) (reg : Name) (f : List Segment → List Segment) : (s.updateSegs reg f).commands = s.commands := rfl
@[simp] theorem State.updateSegs_respReady (s : State) (reg : Name) (f : List Segment → List Segment) : (s.updateSegs reg f).respReady = s.respReady := rfl
@[simp] theorem State.updateSegs_responses (s : State) (reg : Name) (f : List Segment → List Segment) : (s.updateSegs reg f).responses = s.responses := rfl
@[simp] theorem State.updateSegs_treqReady (s : State) (reg : Name) (f : List Segment → List Segment) : (s.updateSegs reg f).treqReady = s.treqReady := rfl
@[simp] theorem State.updateSegs_calls (s : State) (reg : Name) (f : List Segment → List Segment) : (s.updateSegs reg f).calls = s.calls := rfl
@[simp] theorem State.updateSegs_answers (s : State) (reg : Name) (f : List Segment → List Segment) : (s.updateSegs reg f).answers = s.answers := rfl
@[simp] theorem State.updateSegs_stale (s : State) (reg : Name) (f : List Segment → List Segment) : (s.updateSegs reg f).stale = s.stale := rfl
@[simp] theorem State.updateSegs_freeCount (s : State) (reg : Name) (f : List Segment → List Segment) : (s.updateSegs reg f).freeCount = s.freeCount := rfl

@[simp] theorem State.addReg_params (s : State) (c : RegCtx) : (s.addReg c).params = s.params := rfl
@[simp] theorem State.addReg_devAddr (s : State) (c : RegCtx) : (s.addReg c).devAddr = s.devAddr := rfl
@[simp] theorem State.addReg_bank (s : State) (c : RegCtx) : (s.addReg c).bank = s.bank ++ [c] := rfl
@[simp] theorem State.addReg_phase (s : State) (c : RegCtx) : (s.addReg c).phase = s.phase := rfl
@[simp] theorem State.addReg_rst (s : State) (c : RegCtx) : (s.addReg c).rst = s.rst := rfl
@[simp] theorem State.addReg_commands (s : State) (c : RegCtx) : (s.addReg c).commands = s.commands := rfl
@[simp] theorem State.addReg_respReady (s : State) (c : RegCtx) : (s.addReg c).respReady = s.respReady := rfl
@[simp] theorem State.addReg_responses (s : State) (c : RegCtx) : (s.addReg c).responses = s.responses := rfl
@[simp] theorem State.addReg_treqReady (s : State) (c : RegCtx) : (s.addReg c).treqReady = s.treqReady := rfl
@[simp] theorem State.addReg_calls (s : State) (c : RegCtx) : (s.addReg c).calls = s.calls := rfl
@[simp] theorem State.addReg_answers (s : State) (c : RegCtx) : (s.addReg c).answers = s.answers := rfl
@[simp] theorem State.addReg_stale (s : State) (c : RegCtx) : (s.addReg c).stale = s.stale := rfl
@[simp] theorem State.addReg_freeCount (s : State) (c : RegCtx) : (s.addReg c).freeCount = s.freeCount := rfl

@[simp] theorem State.applyReset_params (s : State) : (s.applyReset).params = s.params := rfl
@[simp] theorem State.applyReset_devAddr (s : State) : (s.applyReset).devAddr = s.devAddr := rfl
@[simp] theorem State.applyReset_bank (s : State) : (s.applyReset).bank = [] := rfl
@[simp] theorem State.applyReset_phase (s : State) : (s.applyReset).phase = .idle := rfl
@[simp] theorem State.applyReset_rst (s : State) : (s.applyReset).rst = s.rst := rfl
@[simp] theorem State.applyReset_commands (s : State) : (s.applyReset).commands = s.commands := rfl
@[simp] theorem State.applyReset_respReady (s : State) : (s.applyReset).respReady = s.respReady := rfl
@[simp] theorem State.applyReset_responses (s : State) : (s.applyReset).responses = s.responses := rfl
@[simp] theorem State.applyReset_treqReady (s : State) : (s.applyReset).treqReady = s.treqReady := rfl
@[simp] theorem State.applyReset_calls (s : State) : (s.applyReset).calls = s.calls := rfl
@[simp] theorem State.applyReset_answers (s : State) : (s.applyReset).answers = s.answers := rfl
@[simp] theorem State.applyReset_freeCount (s : State) : (s.applyReset).freeCount = s.freeCount := rfl

/-- A reset while the block waits leaves one more answer to discard (R163); any other reset leaves none more. -/
theorem State.applyReset_stale_waiting (s : State) (t : Transfer) (h : s.phase = .waiting t) :
    s.applyReset.stale = s.stale + 1 := by
  simp [State.applyReset, h]

/-- A bank update is read by the lookups only through the bank. -/
theorem State.findReg_congr (s t : State) (h : s.bank = t.bank) (reg : Name) : s.findReg reg = t.findReg reg := by
  simp [State.findReg, h]

@[simp] theorem State.respond_findReg (s : State) (r : Response) (reg : Name) :
    (s.respond r).findReg reg = s.findReg reg := rfl

@[simp] theorem State.offered_respond (s : State) (r : Response) : (s.respond r).offered = some r := rfl

@[simp] theorem State.busy_respond (s : State) (r : Response) : (s.respond r).busy = true := rfl

@[simp] theorem State.status_respond (s : State) (r : Response) : (s.respond r).status = some r.status := rfl

end Sys2Proof.Machine
end

