-- ==== Sys2Proof/Laws/Ops.lean ====
section
/-! SUPPORT. Laws/Ops.lean: what each shared operation can do, said once. -/

namespace Sys2Proof.Machine

theorem State.respondOk_eq (s : State) (fields : Results → Results) :
    s.respondOk fields = .next (s.respond { status := .ok, results := fields s.freeResults, detail := .empty }) := rfl

theorem State.raise_eq (s : State) (e : Status) (d : Detail) :
    s.raise e d = .next (s.respond { status := e, results := s.freeResults, detail := d }) := rfl

/-! ### The lookups -/

theorem State.findReg_none_iff (s : State) (reg : Name) : s.findReg reg = none ↔ ∀ c ∈ s.bank, c.name ≠ reg := by
  simp [State.findReg]

theorem RegCtx.findSeg_none_iff (c : RegCtx) (seg : Name) : c.findSeg seg = none ↔ ∀ S ∈ c.segs, S.name ≠ seg := by
  simp [RegCtx.findSeg]

/-- A lookup finds an entry of that name with no entry of that name before it. -/
theorem State.findReg_some_iff (s : State) (reg : Name) (c : RegCtx) :
    s.findReg reg = some c ↔
      c.name = reg ∧ ∃ before after, s.bank = before ++ c :: after ∧ ∀ d ∈ before, d.name ≠ reg := by
  simp [State.findReg, List.find?_eq_some_iff_append]

theorem RegCtx.findSeg_some_iff (c : RegCtx) (seg : Name) (S : Segment) :
    c.findSeg seg = some S ↔
      S.name = seg ∧ ∃ before after, c.segs = before ++ S :: after ∧ ∀ T ∈ before, T.name ≠ seg := by
  simp [RegCtx.findSeg, List.find?_eq_some_iff_append]

theorem State.withReg_none (s : State) (reg : Name) (k : RegCtx → Result) (h : s.findReg reg = none) :
    s.withReg reg k = s.raise .notFound (.named .register reg) := by
  simp [State.withReg, h]

theorem State.withReg_some (s : State) (reg : Name) (k : RegCtx → Result) (c : RegCtx) (h : s.findReg reg = some c) :
    s.withReg reg k = k c := by
  simp [State.withReg, h]

/-- What a register lookup can do: NotFound, or going on with the context of that name. -/
theorem State.withReg_cases {s t : State} {reg : Name} {k : RegCtx → Result} (h : s.withReg reg k = .next t) :
    (s.findReg reg = none ∧
      t = s.respond { status := .notFound, results := s.freeResults, detail := .named .register reg }) ∨
    ∃ c, s.findReg reg = some c ∧ k c = .next t := by
  cases hr : s.findReg reg with
  | none =>
    rw [State.withReg_none s reg k hr, State.raise_eq] at h
    exact .inl ⟨rfl, (Host.Outcome.next.inj h).symm⟩
  | some c => exact .inr ⟨c, rfl, by rwa [State.withReg_some s reg k c hr] at h⟩

/-- What a segment lookup can do: NotFound for the register, NotFound for the segment, or going on. -/
theorem State.withSeg_cases {s t : State} {reg seg : Name} {k : RegCtx → Segment → Result}
    (h : s.withSeg reg seg k = .next t) :
    (∃ which name, t =
      s.respond { status := .notFound, results := s.freeResults, detail := .named which name }) ∨
    ∃ c S, s.findReg reg = some c ∧ c.findSeg seg = some S ∧ k c S = .next t := by
  rcases State.withReg_cases h with ⟨_, ht⟩ | ⟨c, hc, hk⟩
  · exact .inl ⟨_, _, ht⟩
  · cases hS : c.findSeg seg with
    | none =>
      simp only [hS] at hk
      exact .inl ⟨_, _, (Host.Outcome.next.inj hk).symm⟩
    | some S =>
      simp only [hS] at hk
      exact .inr ⟨c, S, hc, hS, hk⟩

/-- What the check of a conversion's operand can do: CapacityExceeded, InvalidBitValue, or going on. -/
theorem State.withVec_cases {s t : State} {vec : List Nat} {k : Bits → Result} (h : s.withVec vec k = .next t) :
    (exceeds s.params.maxBits vec.length = true ∧
      t = s.respond { status := .capacityExceeded, results := s.freeResults, detail := .capacity .bits }) ∨
    (∃ i, firstBad vec = some i ∧
      t = s.respond { status := .invalidBitValue, results := s.freeResults, detail := .index i }) ∨
    (exceeds s.params.maxBits vec.length = false ∧ firstBad vec = none ∧ k (bitsOf vec) = .next t) := by
  unfold State.withVec at h
  split at h
  · next hx => exact .inl ⟨hx, (Host.Outcome.next.inj h).symm⟩
  · next hx =>
    split at h
    · next i hi => exact .inr (.inl ⟨i, hi, (Host.Outcome.next.inj h).symm⟩)
    · next hi => exact .inr (.inr ⟨by simpa using hx, hi, h⟩)

/-! ### The tables -/

/-- The update by name changes the entry the lookup finds, and no other. -/
theorem modifyFirst_append {α : Type} {p : α → Bool} {f : α → α} {before : List α} {a : α} {after : List α}
    (hb : ∀ b ∈ before, p b = false) (ha : p a = true) :
    modifyFirst p f (before ++ a :: after) = before ++ f a :: after := by
  induction before with
  | nil => simp [modifyFirst, ha]
  | cons b l ih =>
    have hb' := hb b (by simp)
    simp [modifyFirst, hb', ih fun x hx => hb x (by simp [hx])]

/-- The update by name does nothing where the lookup finds nothing. -/
theorem modifyFirst_of_none {α : Type} {p : α → Bool} {f : α → α} {l : List α} (h : ∀ a ∈ l, p a = false) :
    modifyFirst p f l = l := by
  induction l with
  | nil => rfl
  | cons a l ih => simp [modifyFirst, h a (by simp), ih fun x hx => h x (by simp [hx])]

/-- Entry by entry: each entry of the updated list is the old one or its update. -/
theorem modifyFirst_getElem? {α : Type} (p : α → Bool) (f : α → α) (l : List α) (k : Nat) :
    (modifyFirst p f l)[k]? = l[k]? ∨ ∃ a, l[k]? = some a ∧ p a = true ∧ (modifyFirst p f l)[k]? = some (f a) := by
  induction l generalizing k with
  | nil => simp [modifyFirst]
  | cons a l ih =>
    by_cases ha : p a = true
    · cases k with
      | zero => exact .inr ⟨a, by simp [modifyFirst, ha]⟩
      | succ k => exact .inl (by simp [modifyFirst, ha])
    · cases k with
      | zero => exact .inl (by simp [modifyFirst, ha])
      | succ k => simpa [modifyFirst, ha] using ih k

@[simp] theorem length_modifyFirst {α : Type} (p : α → Bool) (f : α → α) (l : List α) :
    (modifyFirst p f l).length = l.length := by
  induction l with
  | nil => rfl
  | cons a l ih => by_cases ha : p a = true <;> simp [modifyFirst, ha, ih]

/-- What the update keeps of every entry, the updated list keeps as a whole. -/
theorem map_modifyFirst {α β : Type} (p : α → Bool) (f : α → α) (g : α → β) (hg : ∀ a, g (f a) = g a) (l : List α) :
    (modifyFirst p f l).map g = l.map g := by
  induction l with
  | nil => rfl
  | cons a l ih => by_cases ha : p a = true <;> simp [modifyFirst, ha, ih, hg]

theorem State.updateSegs_eq {s : State} {reg : Name} {f : List Segment → List Segment} {before : List RegCtx}
    {c : RegCtx} {after : List RegCtx} (hb : s.bank = before ++ c :: after) (hn : ∀ d ∈ before, d.name ≠ reg)
    (hc : c.name = reg) :
    s.updateSegs reg f = { s with bank := before ++ { c with segs := f c.segs } :: after } := by
  have : modifyFirst (fun c => c.name == reg) (fun c : RegCtx => { c with segs := f c.segs }) s.bank =
      before ++ { c with segs := f c.segs } :: after := by
    rw [hb]
    exact modifyFirst_append (by simpa using hn) (by simpa using hc)
  simp [State.updateSegs, this]

/-! ### READ's loop -/

@[simp] theorem length_unpack (y : List Byte) (segs : List Segment) : (unpack y segs).length = segs.length := by
  induction segs with
  | nil => rfl
  | cons S rest ih => by_cases h : covers S.msb y = true <;> simp [unpack, h, ih]

/-- Unpacking never changes a descriptor. -/
theorem shape_unpack (y : List Byte) (segs : List Segment) :
    (unpack y segs).map Segment.shape = segs.map Segment.shape := by
  induction segs with
  | nil => rfl
  | cons S rest ih => by_cases h : covers S.msb y = true <;> simp_all [unpack]

/-- When every window is covered, every segment takes its own. -/
theorem unpack_of_covered {y : List Byte} {segs : List Segment} (h : ∀ S ∈ segs, covers S.msb y = true) :
    unpack y segs = segs.map fun S => { S with bits := extract S.lsb S.msb y } := by
  induction segs with
  | nil => rfl
  | cons S rest ih => simp [unpack, h S (by simp), ih fun T hT => h T (by simp [hT])]

/-- The loop stops at the first uncovered segment: it and all later ones keep their bits. -/
theorem unpack_of_uncovered {y : List Byte} {before : List Segment} {S : Segment} {after : List Segment}
    (hb : ∀ T ∈ before, covers T.msb y = true) (hS : covers S.msb y = false) :
    unpack y (before ++ S :: after) =
      (before.map fun T => { T with bits := extract T.lsb T.msb y }) ++ S :: after := by
  induction before with
  | nil => simp [unpack, hS]
  | cons T rest ih => simp [unpack, hb T (by simp), ih fun U hU => hb U (by simp [hU])]

/-! ### The transport call -/

/-- A value cut to a width fits it. -/
theorem fits_cutTo (w : Option Nat) (v : Nat) : fits w (cutTo w v) = true := by
  cases w with
  | none => rfl
  | some k => exact decide_eq_true (Nat.mod_lt v (Nat.two_pow_pos k))

/-- A value that fits a width is not cut. -/
theorem cutTo_of_fits {w : Option Nat} {v : Nat} (h : fits w v = true) : cutTo w v = v := by
  cases w with
  | none => rfl
  | some k => exact Nat.mod_eq_of_lt (by simpa [fits] using h)

/-- The status word of an answer has `TSTAT_W` bits. -/
theorem TransportAnswer.fits_status (p : Params) (a : TransportAnswer) : fits p.tstatW (a.status p) = true :=
  fits_cutTo p.tstatW a.tstatus

/-- The status word of an answer that fits its channel is the answer's own. -/
theorem TransportAnswer.status_of_fits {p : Params} {a : TransportAnswer} (h : fits p.tstatW a.tstatus = true) :
    a.status p = a.tstatus :=
  cutTo_of_fits h

/-- Taking an answer changes the answers and nothing else. -/
theorem State.takeAnswer_some {s s' : State} {a : TransportAnswer} (h : s.takeAnswer = some (a, s')) :
    ∃ rest, s.answers.drop s.stale = a :: rest ∧ s' = { s with answers := rest, stale := 0 } := by
  unfold State.takeAnswer at h
  split at h
  · exact absurd h (by simp)
  · next b rest hd =>
    simp only [Option.some.injEq, Prod.mk.injEq] at h
    exact ⟨rest, by rw [hd, h.1], h.2.symm⟩

theorem State.takeAnswer_none_iff (s : State) : s.takeAnswer = none ↔ s.answers.drop s.stale = [] := by
  unfold State.takeAnswer
  cases s.answers.drop s.stale <;> simp

/-- What the end of a transfer can do: it responds, over the bank as it was or with the register unpacked. -/
theorem State.finishTransfer_cases {s t : State} {x : Transfer} {a : TransportAnswer}
    (h : s.finishTransfer x a = .next t) :
    (a.status s.params ≠ 0 ∧
      t = s.respond
        { status := .transportError, results := s.freeResults, detail := .tstatus (a.status s.params) }) ∨
    (a.status s.params = 0 ∧ (∃ dev ra y, x.request = .writeBytes dev ra y) ∧
      t = s.respond { status := .ok, results := s.freeResults, detail := .empty }) ∨
    (a.status s.params = 0 ∧ (∃ dev ra n, x.request = .readBytes dev ra n) ∧ ∃ c, s.findReg x.reg = some c ∧
      ((firstUncovered c.segs a.rbytes = none ∧
          t = (s.updateSegs x.reg (unpack a.rbytes)).respond
            { status := .ok, results := s.freeResults, detail := .empty }) ∨
        ∃ S, firstUncovered c.segs a.rbytes = some S ∧
          t = (s.updateSegs x.reg (unpack a.rbytes)).respond
            { status := .insufficientData, results := s.freeResults,
              detail := .insufficient S.name (bytesNeeded S.msb) a.rbytes.length })) := by
  unfold State.finishTransfer at h
  split at h
  · next ht => exact .inl ⟨ht, (Host.Outcome.next.inj h).symm⟩
  · next ht =>
    have ht : a.status s.params = 0 := by simpa using ht
    split at h
    · next dev ra y hq => exact .inr (.inl ⟨ht, ⟨dev, ra, y, hq⟩, (Host.Outcome.next.inj h).symm⟩)
    · next dev ra n hq =>
      refine .inr (.inr ⟨ht, ⟨dev, ra, n, hq⟩, ?_⟩)
      split at h
      · exact absurd h (by simp)
      · next c hc =>
        refine ⟨c, hc, ?_⟩
        split at h
        · next hu => exact .inl ⟨hu, (Host.Outcome.next.inj h).symm⟩
        · next S hu => exact .inr ⟨S, hu, (Host.Outcome.next.inj h).symm⟩

/-- What waiting for an answer can do: go on waiting, or take the answer and end. -/
theorem State.awaitAnswer_cases {s t : State} {x : Transfer} (h : s.awaitAnswer x = .next t) :
    (s.answers.drop s.stale = [] ∧ t = { s with phase := .waiting x }) ∨
    ∃ a rest, s.answers.drop s.stale = a :: rest ∧
      ({ s with answers := rest, stale := 0 } : State).finishTransfer x a = .next t := by
  unfold State.awaitAnswer at h
  split at h
  · next hn => exact .inl ⟨(State.takeAnswer_none_iff s).1 hn, (Host.Outcome.next.inj h).symm⟩
  · next a s' hs =>
    obtain ⟨rest, hd, rfl⟩ := State.takeAnswer_some hs
    exact .inr ⟨a, rest, hd, h⟩

/-- What offering a request can do: go on offering, or make the one call and wait for its answer. -/
theorem State.offerRequest_cases {s t : State} {x : Transfer} (h : s.offerRequest x = .next t) :
    (s.treqReady = false ∧ t = { s with phase := .requesting x }) ∨
    (s.treqReady = true ∧ ({ s with calls := s.calls ++ [x.request] } : State).awaitAnswer x = .next t) := by
  unfold State.offerRequest at h
  split at h
  · next hr => exact .inr ⟨hr, h⟩
  · next hr => exact .inl ⟨by simpa using hr, (Host.Outcome.next.inj h).symm⟩

/-- What accepting a record can do: IllegalCommand, running the command, or (with operands no such channel carries) a
refusal. -/
theorem runRecord_cases {r : CommandRecord} {s t : State} (h : runRecord r s = .next t) :
    (decode r = .error (.illegalCommand r.op) ∧
      t = s.respond { status := .illegalCommand, results := s.freeResults, detail := .opcode r.op }) ∨
    ∃ i, decode r = .ok i ∧ i.wf s.params = true ∧ exec i s = .next t := by
  unfold runRecord at h
  split at h
  · next e he =>
    have : e = .illegalCommand r.op := by
      unfold decode at he
      split at he <;> simp_all
    subst this
    exact .inl ⟨he, (Host.Outcome.next.inj h).symm⟩
  · next i hi =>
    split at h
    · next hw => exact .inr ⟨i, hi, hw, h⟩
    · exact absurd h (by simp)

/-- What one step can do. -/
theorem step_cases {s t : State} (h : step s = .next t) :
    (s.rst = true ∧ t = s.applyReset) ∨
    (s.rst = false ∧ s.phase = .idle ∧ s.commands = [] ∧ t = s) ∨
    (s.rst = false ∧ s.phase = .idle ∧
      ∃ r rest, s.commands = r :: rest ∧ runRecord r { s with commands := rest } = .next t) ∨
    (s.rst = false ∧ ∃ x, s.phase = .requesting x ∧ s.offerRequest x = .next t) ∨
    (s.rst = false ∧ ∃ x, s.phase = .waiting x ∧ s.awaitAnswer x = .next t) ∨
    (s.rst = false ∧ ∃ r, s.phase = .responding r ∧ t = s.offerResponse r) := by
  unfold step at h
  split at h
  · next hr => exact .inl ⟨hr, (Host.Outcome.next.inj h).symm⟩
  · next hr =>
    have hr : s.rst = false := by simpa using hr
    refine .inr ?_
    split at h
    · next hp =>
      unfold State.fetch at h
      cases hc : s.commands with
      | nil =>
        simp only [hc] at h
        exact .inl ⟨hr, hp, rfl, (Host.Outcome.next.inj h).symm⟩
      | cons r rest =>
        simp only [hc] at h
        exact .inr (.inl ⟨hr, hp, r, rest, rfl, h⟩)
    · next x hp => exact .inr (.inr (.inl ⟨hr, x, hp, h⟩))
    · next x hp => exact .inr (.inr (.inr (.inl ⟨hr, x, hp, h⟩)))
    · next r hp => exact .inr (.inr (.inr (.inr ⟨hr, r, hp, (Host.Outcome.next.inj h).symm⟩)))

/-- A run goes on from where its first step leads. -/
theorem run_of_step (M : Host.Core) (k : Nat) (s t : M.State) (h : M.step s = .next t) :
    M.run (k + 1) s = M.run k t := by
  simp only [Host.Core.run, h]

theorem core_run_of_step (k : Nat) {s t : State} (h : step s = .next t) :
    Host.Core.run Sys2Proof.core (k + 1) s = Host.Core.run Sys2Proof.core k t :=
  run_of_step Sys2Proof.core k s t h

end Sys2Proof.Machine
end

