-- ==== Sys2Proof/Laws/Exec.lean ====
section
/-! SUPPORT. Laws/Exec.lean: what a command can do, said once: it responds over the bank as it was, or after the one
write of the tables its rule gives it, or (READ and WRITE) it offers its one transport request. -/

namespace Sys2Proof.Machine

/-- A response over `u` to a command accepted in `s`, with a detail of the command's own (no transport status). -/
def RespondsOver (s u t : State) (e : Status) : Prop :=
  ∃ (f : Results → Results) (d : Detail), (∀ n, d ≠ .tstatus n) ∧
    t = u.respond { status := e, results := f s.freeResults, detail := d }

theorem respondsOver_raise {s t : State} {e : Status} {d : Detail} (h : s.raise e d = .next t)
    (hd : ∀ n, d ≠ .tstatus n := by simp) : RespondsOver s s t e :=
  ⟨id, d, hd, (Host.Outcome.next.inj h).symm⟩

theorem respondsOver_ok {s t : State} {f : Results → Results} (h : s.respondOk f = .next t) :
    RespondsOver s s t .ok :=
  ⟨f, .empty, by simp, (Host.Outcome.next.inj h).symm⟩

theorem withReg_respondsOver {s t : State} {reg : Name} {k : RegCtx → Result} (h : s.withReg reg k = .next t) :
    RespondsOver s s t .notFound ∨ ∃ c, s.findReg reg = some c ∧ k c = .next t := by
  rcases State.withReg_cases h with ⟨_, ht⟩ | hk
  · exact .inl ⟨id, _, by simp, ht⟩
  · exact .inr hk

theorem withSeg_respondsOver {s t : State} {reg seg : Name} {k : RegCtx → Segment → Result}
    (h : s.withSeg reg seg k = .next t) :
    RespondsOver s s t .notFound ∨
      ∃ c S, s.findReg reg = some c ∧ c.findSeg seg = some S ∧ k c S = .next t := by
  rcases State.withSeg_cases h with ⟨which, name, ht⟩ | hk
  · exact .inl ⟨id, _, by simp, ht⟩
  · exact .inr hk

theorem withVec_respondsOver {s t : State} {vec : List Nat} {k : Bits → Result} (h : s.withVec vec k = .next t) :
    (RespondsOver s s t .capacityExceeded ∧ exceeds s.params.maxBits vec.length = true) ∨
      (RespondsOver s s t .invalidBitValue ∧ ∃ i, firstBad vec = some i) ∨
      (firstBad vec = none ∧ k (bitsOf vec) = .next t) := by
  rcases State.withVec_cases h with ⟨hx, ht⟩ | ⟨i, hi, ht⟩ | ⟨_, hn, hk⟩
  · exact .inl ⟨⟨id, _, by simp, ht⟩, hx⟩
  · exact .inr (.inl ⟨⟨id, _, by simp, ht⟩, i, hi⟩)
  · exact .inr (.inr ⟨hn, hk⟩)

/-- What `validate` can fail with. -/
theorem layoutError_cases {segs : List Segment} {e : Status} {d : Detail} (h : layoutError segs = some (e, d)) :
    (e = .continuityError ∧ d = .gaps (gaps segs)) ∨ (e = .overlapError ∧ d = .conflicts (conflicts segs)) := by
  unfold layoutError at h
  split at h
  · simp_all
  · split at h <;> simp_all

/-- TOBITS writes nothing. -/
theorem execTobits_cases {value : Int} {width : Nat} {s t : State} (h : execTobits value width s = .next t) :
    ∃ e, RespondsOver s s t e ∧ (e = .ok ∨ e = .rangeError ∨
      (e = .capacityExceeded ∧ exceeds s.params.maxBits width = true)) := by
  unfold execTobits at h
  split at h
  · next hx => exact ⟨_, respondsOver_raise h, by simp [hx]⟩
  · split at h
    · exact ⟨_, respondsOver_ok h, by simp⟩
    · exact ⟨_, respondsOver_raise h, by simp⟩

/-- A conversion of a bit-vector operand writes nothing. -/
theorem withVec_ok_cases {s t : State} {vec : List Nat} {f : Bits → Results → Results}
    (h : (s.withVec vec fun b => s.respondOk (f b)) = .next t) :
    ∃ e, RespondsOver s s t e ∧ (e = .ok ∨ (e = .invalidBitValue ∧ ∃ i, firstBad vec = some i) ∨
      (e = .capacityExceeded ∧ exceeds s.params.maxBits vec.length = true)) := by
  rcases withVec_respondsOver h with ⟨h, hx⟩ | ⟨h, hi⟩ | ⟨_, h⟩
  · exact ⟨_, h, by simp [hx]⟩
  · exact ⟨_, h, by simp [hi]⟩
  · exact ⟨_, respondsOver_ok h, by simp⟩

/-- TOINT writes nothing. -/
theorem execToint_cases {vec : List Nat} {s t : State} (h : execToint vec s = .next t) :
    ∃ e, RespondsOver s s t e ∧ (e = .ok ∨ (e = .invalidBitValue ∧ ∃ i, firstBad vec = some i) ∨
      (e = .capacityExceeded ∧ exceeds s.params.maxBits vec.length = true)) := by
  unfold execToint at h
  exact withVec_ok_cases h

/-- TOTC writes nothing. -/
theorem execTotc_cases {vec : List Nat} {s t : State} (h : execTotc vec s = .next t) :
    ∃ e, RespondsOver s s t e ∧ (e = .ok ∨ (e = .invalidBitValue ∧ ∃ i, firstBad vec = some i) ∨
      (e = .capacityExceeded ∧ exceeds s.params.maxBits vec.length = true)) := by
  unfold execTotc at h
  exact withVec_ok_cases h

/-- PADBYTES writes nothing. -/
theorem execPadbytes_cases {vec : List Nat} {s t : State} (h : execPadbytes vec s = .next t) :
    ∃ e, RespondsOver s s t e ∧ (e = .ok ∨ (e = .invalidBitValue ∧ ∃ i, firstBad vec = some i) ∨
      (e = .capacityExceeded ∧ exceeds s.params.maxBits vec.length = true)) := by
  unfold execPadbytes at h
  exact withVec_ok_cases h

/-- NBYTES writes nothing and never fails. -/
theorem execNbytes_cases {n : Nat} {s t : State} (h : execNbytes n s = .next t) : RespondsOver s s t .ok := by
  unfold execNbytes at h
  exact respondsOver_ok h

/-- REGADD raises, or appends one context whose name no context has. -/
theorem execRegadd_cases {reg : Name} {raddr : Nat} {mode : AccessMode} {s t : State}
    (h : execRegadd reg raddr mode s = .next t) :
    RespondsOver s s t .duplicateName ∨
      (RespondsOver s s t .capacityExceeded ∧ atCapacity s.params.maxRegs s.bank.length = true) ∨
      (s.findReg reg = none ∧ atCapacity s.params.maxRegs s.bank.length = false ∧
        RespondsOver s (s.addReg { name := reg, raddr := raddr, mode := mode, segs := [] }) t .ok) := by
  unfold execRegadd at h
  split at h
  · exact .inl (respondsOver_raise h)
  · next hd =>
    split at h
    · next hx => exact .inr (.inl ⟨respondsOver_raise h, hx⟩)
    · next hx =>
      exact .inr (.inr ⟨by simpa using hd, by simpa using hx, fun f => { f with n0 := s.bank.length }, .empty, by simp,
        (Host.Outcome.next.inj h).symm⟩)

/-- SEGADD raises, or appends one zero segment whose name no segment of the register has. -/
theorem execSegadd_cases {reg seg : Name} {lsb msb : Nat} {s t : State} (h : execSegadd reg seg lsb msb s = .next t) :
    (∃ e, RespondsOver s s t e ∧ (e = .notFound ∨ e = .configurationError ∨ e = .duplicateName ∨
      (e = .capacityExceeded ∧ ∃ c, s.findReg reg = some c ∧
        (beyondBits s.params.maxBits msb = true ∨ atCapacity s.params.maxSegs c.segs.length = true)))) ∨
    ∃ c, s.findReg reg = some c ∧ lsb ≤ msb ∧ c.findSeg seg = none ∧ beyondBits s.params.maxBits msb = false ∧
      atCapacity s.params.maxSegs c.segs.length = false ∧
      RespondsOver s (s.addSeg reg
        { name := seg, lsb := lsb, msb := msb, bits := List.replicate (msb - lsb + 1) false }) t .ok := by
  rcases withReg_respondsOver h with h | ⟨c, hc, h⟩
  · exact .inl ⟨_, h, by simp⟩
  split at h
  · exact .inl ⟨_, respondsOver_raise h, by simp⟩
  split at h
  · exact .inl ⟨_, respondsOver_raise h, by simp⟩
  split at h
  · next hx => exact .inl ⟨_, respondsOver_raise h, by simp [hc, hx]⟩
  split at h
  · next hx => exact .inl ⟨_, respondsOver_raise h, by simp [hc, hx]⟩
  · next hl hd hb hx =>
    exact .inr ⟨c, hc, by omega, by simpa using hd, by simpa using hb, by simpa using hx,
      fun f => { f with n0 := c.segs.length }, .empty, by simp, (Host.Outcome.next.inj h).symm⟩

/-- A command that only reads a register answers `OK` or NotFound and writes nothing. -/
theorem withReg_ok_cases {s t : State} {reg : Name} {f : RegCtx → Results → Results}
    (h : (s.withReg reg fun c => s.respondOk (f c)) = .next t) :
    ∃ e, RespondsOver s s t e ∧ (e = .ok ∨ e = .notFound) := by
  rcases withReg_respondsOver h with h | ⟨c, _, h⟩
  · exact ⟨_, h, by simp⟩
  · exact ⟨_, respondsOver_ok h, by simp⟩

/-- A command that only reads a segment answers `OK` or NotFound and writes nothing. -/
theorem withSeg_ok_cases {s t : State} {reg seg : Name} {f : RegCtx → Segment → Results → Results}
    (h : (s.withSeg reg seg fun c S => s.respondOk (f c S)) = .next t) :
    ∃ e, RespondsOver s s t e ∧ (e = .ok ∨ e = .notFound) := by
  rcases withSeg_respondsOver h with h | ⟨c, S, _, _, h⟩
  · exact ⟨_, h, by simp⟩
  · exact ⟨_, respondsOver_ok h, by simp⟩

/-- REGGET writes nothing. -/
theorem execRegget_cases {reg : Name} {s t : State} (h : execRegget reg s = .next t) :
    ∃ e, RespondsOver s s t e ∧ (e = .ok ∨ e = .notFound) := by
  unfold execRegget at h
  exact withReg_ok_cases h

/-- TOTBITS writes nothing. -/
theorem execTotbits_cases {reg : Name} {s t : State} (h : execTotbits reg s = .next t) :
    ∃ e, RespondsOver s s t e ∧ (e = .ok ∨ e = .notFound) := by
  unfold execTotbits at h
  exact withReg_ok_cases h

/-- TOTBYTES writes nothing. -/
theorem execTotbytes_cases {reg : Name} {s t : State} (h : execTotbytes reg s = .next t) :
    ∃ e, RespondsOver s s t e ∧ (e = .ok ∨ e = .notFound) := by
  unfold execTotbytes at h
  exact withReg_ok_cases h

/-- SEGGET writes nothing. -/
theorem execSegget_cases {reg seg : Name} {s t : State} (h : execSegget reg seg s = .next t) :
    ∃ e, RespondsOver s s t e ∧ (e = .ok ∨ e = .notFound) := by
  unfold execSegget at h
  exact withSeg_ok_cases h

/-- SEGINT writes nothing. -/
theorem execSegint_cases {reg seg : Name} {s t : State} (h : execSegint reg seg s = .next t) :
    ∃ e, RespondsOver s s t e ∧ (e = .ok ∨ e = .notFound) := by
  unfold execSegint at h
  exact withSeg_ok_cases h

/-- SEGTC writes nothing. -/
theorem execSegtc_cases {reg seg : Name} {s t : State} (h : execSegtc reg seg s = .next t) :
    ∃ e, RespondsOver s s t e ∧ (e = .ok ∨ e = .notFound) := by
  unfold execSegtc at h
  exact withSeg_ok_cases h

/-- SETBITS raises, or stores a vector of the segment's width in the one segment it names. -/
theorem execSetbits_cases {reg seg : Name} {vec : List Nat} {s t : State} (h : execSetbits reg seg vec s = .next t) :
    (∃ e, RespondsOver s s t e ∧ (e = .notFound ∨ e = .lengthMismatch ∨
      (e = .invalidBitValue ∧ ∃ i, firstBad vec = some i))) ∨
    ∃ c S, s.findReg reg = some c ∧ c.findSeg seg = some S ∧ vec.length = S.width ∧
      RespondsOver s (s.storeBits reg seg (bitsOf vec)) t .ok := by
  rcases withSeg_respondsOver h with h | ⟨c, S, hc, hS, h⟩
  · exact .inl ⟨_, h, by simp⟩
  split at h
  · exact .inl ⟨_, respondsOver_raise h, by simp⟩
  · next hl =>
    split at h
    · next i hi => exact .inl ⟨_, respondsOver_raise h, by simp [hi]⟩
    · exact .inr ⟨c, S, hc, hS, by simpa using hl, id, .empty, by simp, (Host.Outcome.next.inj h).symm⟩

/-- SEGUPD raises, or stores the window of the one segment it names. -/
theorem execSegupd_cases {reg seg : Name} {y : List Byte} {s t : State} (h : execSegupd reg seg y s = .next t) :
    (∃ e, RespondsOver s s t e ∧ (e = .notFound ∨ e = .insufficientData ∨
      (e = .capacityExceeded ∧ exceeds s.params.maxBytes y.length = true))) ∨
    ∃ c S, s.findReg reg = some c ∧ c.findSeg seg = some S ∧
      RespondsOver s (s.storeBits reg seg (extract S.lsb S.msb y)) t .ok := by
  rcases withSeg_respondsOver h with h | ⟨c, S, hc, hS, h⟩
  · exact .inl ⟨_, h, by simp⟩
  split at h
  · next hx => exact .inl ⟨_, respondsOver_raise h, by simp [hx]⟩
  · split at h
    · exact .inr ⟨c, S, hc, hS, id, .empty, by simp, (Host.Outcome.next.inj h).symm⟩
    · exact .inl ⟨_, respondsOver_raise h, by simp⟩

/-- READ raises, or offers one `read_bytes` of the register's total bytes. -/
theorem execRead_cases {reg : Name} {s t : State} (h : execRead reg s = .next t) :
    (∃ e, RespondsOver s s t e ∧ (e = .notFound ∨ e = .accessDenied ∨
      (e = .capacityExceeded ∧ ∃ c, s.findReg reg = some c ∧
        exceeds s.params.maxBytes (totalBytes c.segs) = true))) ∨
    ∃ c, s.findReg reg = some c ∧ c.mode.readable = true ∧
      s.offerRequest { reg := reg, request := .readBytes s.devAddr c.raddr (totalBytes c.segs) } = .next t := by
  rcases withReg_respondsOver h with h | ⟨c, hc, h⟩
  · exact .inl ⟨_, h, by simp⟩
  split at h
  · exact .inl ⟨_, respondsOver_raise h, by simp⟩
  · next hm =>
    split at h
    · next hx => exact .inl ⟨_, respondsOver_raise h, by simp [hc, hx]⟩
    · exact .inr ⟨c, hc, by simpa [RegCtx.mayRead] using hm, h⟩

/-- WRITE raises, or offers one `write_bytes` of the packed segments. -/
theorem execWrite_cases {reg : Name} {s t : State} (h : execWrite reg s = .next t) :
    (∃ e, RespondsOver s s t e ∧ (e = .notFound ∨ e = .accessDenied ∨ e = .emptyRegister ∨
      e = .continuityError ∨ e = .overlapError)) ∨
    ∃ c, s.findReg reg = some c ∧ c.mode.writable = true ∧ layoutError c.segs = none ∧
      s.offerRequest { reg := reg, request := .writeBytes s.devAddr c.raddr (pack c.segs) } = .next t := by
  rcases withReg_respondsOver h with h | ⟨c, hc, h⟩
  · exact .inl ⟨_, h, by simp⟩
  split at h
  · exact .inl ⟨_, respondsOver_raise h, by simp⟩
  split at h
  · exact .inl ⟨_, respondsOver_raise h, by simp⟩
  · next hm _ =>
    split at h
    · next e d hl =>
      rcases layoutError_cases hl with ⟨rfl, rfl⟩ | ⟨rfl, rfl⟩ <;> exact .inl ⟨_, respondsOver_raise h, by simp⟩
    · next hl => exact .inr ⟨c, hc, by simpa [RegCtx.mayWrite] using hm, hl, h⟩

end Sys2Proof.Machine
end

