-- ==== Sys2Proof/Laws/Bank.lean ====
section
/-! SUPPORT. Laws/Bank.lean: what the host's sequences are made of: a command issued, a sequence that goes on or stops,
and the default write strategy (spec/44_bank_sequences.md R120, R126). -/

namespace Sys2Proof.Machine

/-- Issuing a command that raises an error: the response carries it, and the tables and calls are as before. -/
theorem issue_of_raise {i : Instr} {s : State} {e : Status} {d : Detail} (h : exec i s = s.raise e d) :
    ∃ r t, issue i s = some (r, t) ∧ r.status = e ∧ r.detail = d ∧ t.bank = s.bank ∧ t.params = s.params ∧
      t.calls = s.calls := by
  unfold issue
  rw [h]
  exact ⟨_, _, rfl, rfl, rfl, rfl, rfl, rfl⟩

/-- Issuing a command that ends with `OK` over `u`: the response carries its fields, and the tables and calls are
those of `u`. -/
theorem issue_of_respondOk {i : Instr} {s u : State} {f : Results → Results} (h : exec i s = u.respondOk f) :
    ∃ r t, issue i s = some (r, t) ∧ r.status = .ok ∧ r.results = f u.freeResults ∧ t.bank = u.bank ∧
      t.params = u.params ∧ t.calls = u.calls := by
  unfold issue
  rw [h]
  exact ⟨_, _, rfl, rfl, rfl, rfl, rfl, rfl⟩

theorem andThen_of_ok {r : Response} {s : State} {k : Response → State → HostResult} (h : r.status = .ok) :
    andThen (some (r, s)) k = k r s := by
  simp [andThen, h]

theorem andThen_of_error {r : Response} {s : State} {k : Response → State → HostResult} (h : r.status ≠ .ok) :
    andThen (some (r, s)) k = some (r, s) := by
  simp [andThen, h]

/-- The default write strategy is the one command WRITE. -/
theorem runSequence_writeStrategy (reg : Name) (last : Response) (s : State) :
    runSequence (writeStrategy reg) last s = issue (.write reg) s := by
  simp only [writeStrategy, runSequence, andThen]
  cases issue (.write reg) s with
  | none => rfl
  | some x => simp

end Sys2Proof.Machine
end

