-- ==== Sys2Proof/Laws/Bits.lean ====
section
/-! SUPPORT. Laws/Bits.lean: the small lemmas of the conversion functions. -/

namespace Sys2Proof.Machine

@[simp] theorem length_toBits (v w : Nat) : (toBits v w).length = w := by
  simp [toBits]

theorem toBits_getElem? {v w i : Nat} (h : i < w) : (toBits v w)[i]? = some (decide (v / 2 ^ i % 2 = 1)) := by
  simp [toBits, h]

@[simp] theorem toInt_nil : toInt [] = 0 := rfl

@[simp] theorem toInt_cons (b : Bool) (bs : Bits) : toInt (b :: bs) = b.toNat + 2 * toInt bs := rfl

/-- The value of a bit-vector is below `2^len` (R71). -/
theorem toInt_lt (b : Bits) : toInt b < 2 ^ b.length := by
  induction b with
  | nil => simp
  | cons x xs ih =>
    have := Bool.toNat_le x
    simp only [toInt_cons, List.length_cons, Nat.pow_succ]
    omega

/-- The value of a concatenation: the second part weighs `2^len` of the first. -/
theorem toInt_append (a b : Bits) : toInt (a ++ b) = toInt a + 2 ^ a.length * toInt b := by
  induction a with
  | nil => simp
  | cons x xs ih =>
    simp only [List.cons_append, toInt_cons, ih, List.length_cons, Nat.pow_succ]
    ring

/-- Bit `i` of the value is element `i` of the vector. -/
theorem testBit_toInt (b : Bits) (i : Nat) : (toInt b).testBit i = b.getD i false := by
  induction b generalizing i with
  | nil => simp
  | cons x xs ih =>
    cases i with
    | zero => cases x <;> simp [Nat.testBit_zero]
    | succ i =>
      have hx : (x.toNat + 2 * toInt xs) / 2 = toInt xs := by
        have := Bool.toNat_lt x
        omega
      rw [toInt_cons, Nat.testBit_succ, hx, ih]
      simp

@[simp] theorem length_toPaddedByteArr (b : Bits) :
    (toPaddedByteArr b).length = numBytesForBits b.length := by
  simp [toPaddedByteArr]

/-- Bit `k` of byte `j` of a padded byte array is element `8j + k` of the vector, or 0 beyond its end (R34, R35). -/
theorem groupByte_getLsbD (b : Bits) (j k : Nat) (hk : k < 8) :
    (groupByte b j).getLsbD k = b.getD (8 * j + k) false := by
  have h8 : ((b.drop (8 * j)).take 8).length ≤ 8 := by simp
  simp only [groupByte, BitVec.getLsbD_ofNat, hk, decide_true, Bool.true_and, testBit_toInt]
  simp [List.getD_eq_getElem?_getD, hk, List.getElem?_drop]

@[simp] theorem length_extract (lsb msb : Nat) (y : List Byte) : (extract lsb msb y).length = msb - lsb + 1 := by
  simp [extract]

theorem extract_getElem? {lsb msb i : Nat} (y : List Byte) (h : i < msb - lsb + 1) :
    (extract lsb msb y)[i]? = some (byteBit y (lsb + i)) := by
  simp [extract, h]

@[simp] theorem length_assemble (segs : List Segment) : (assemble segs).length = maxBit segs + 1 := by
  simp [assemble]

theorem bytesNeeded_eq (msb : Nat) : bytesNeeded msb = msb / 8 + 1 := by
  simp only [bytesNeeded, numBytesForBits]
  omega

/-- No segment reaches beyond `maxBit` (R102, step 1). -/
theorem msb_le_maxBit {segs : List Segment} {S : Segment} (h : S ∈ segs) : S.msb ≤ maxBit segs := by
  induction segs with
  | nil => simp at h
  | cons T rest ih =>
    simp only [maxBit, List.foldr_cons]
    rcases List.mem_cons.1 h with rfl | h
    · exact Nat.le_max_left _ _
    · exact le_trans (ih h) (Nat.le_max_right _ _)

/-- A bit-vector operand whose elements are bits has no offending index, and conversely (R76). -/
theorem firstBad_none_iff (vec : List Nat) : firstBad vec = none ↔ ∀ e ∈ vec, e ≤ 1 := by
  simp [firstBad, isBit]

@[simp] theorem length_bitsOf (vec : List Nat) : (bitsOf vec).length = vec.length := by
  simp [bitsOf]

end Sys2Proof.Machine
end

