-- ==== Sys2Proof/Laws/PerInstr.lean ====
section
/-! SUPPORT. Laws/PerInstr.lean: what is said of every command as syntax, one lemma per constructor. -/

namespace Sys2Proof.Laws

/-- The record of a command carries the opcode of its row, and the fields its format does not name are zero or empty
(R51, R52). -/
def RowOfTable.Statement (i : Instr) : Prop :=
  Opcode.ofCode (encode i).op = some i.opcode ∧ (encode i).restrict i.opcode.format = encode i

namespace RowOfTable

theorem tobits (value : Int) (width : Nat) : Statement (.tobits value width) := ⟨rfl, rfl⟩
theorem toint (vec : List Nat) : Statement (.toint vec) := ⟨rfl, rfl⟩
theorem totc (vec : List Nat) : Statement (.totc vec) := ⟨rfl, rfl⟩
theorem nbytes (n : Nat) : Statement (.nbytes n) := ⟨rfl, rfl⟩
theorem padbytes (vec : List Nat) : Statement (.padbytes vec) := ⟨rfl, rfl⟩
theorem regadd (reg : Name) (raddr : Nat) (mode : AccessMode) : Statement (.regadd reg raddr mode) := ⟨rfl, rfl⟩
theorem segadd (reg seg : Name) (lsb msb : Nat) : Statement (.segadd reg seg lsb msb) := ⟨rfl, rfl⟩
theorem regget (reg : Name) : Statement (.regget reg) := ⟨rfl, rfl⟩
theorem segget (reg seg : Name) : Statement (.segget reg seg) := ⟨rfl, rfl⟩
theorem totbits (reg : Name) : Statement (.totbits reg) := ⟨rfl, rfl⟩
theorem totbytes (reg : Name) : Statement (.totbytes reg) := ⟨rfl, rfl⟩
theorem setbits (reg seg : Name) (vec : List Nat) : Statement (.setbits reg seg vec) := ⟨rfl, rfl⟩
theorem segupd (reg seg : Name) (bytes : List Byte) : Statement (.segupd reg seg bytes) := ⟨rfl, rfl⟩
theorem segint (reg seg : Name) : Statement (.segint reg seg) := ⟨rfl, rfl⟩
theorem segtc (reg seg : Name) : Statement (.segtc reg seg) := ⟨rfl, rfl⟩
theorem read (reg : Name) : Statement (.read reg) := ⟨rfl, rfl⟩
theorem write (reg : Name) : Statement (.write reg) := ⟨rfl, rfl⟩

end RowOfTable

end Sys2Proof.Laws
end

