-- ==== Sys2Proof/Tests/Slice0.lean ====
section
/-! SUPPORT. Tests/Slice0.lean: the model's own tests. Expected values are those of spec/95_test_vectors.md (V, K, G,
W, Q: the vector's name stands in the test's comment) or of the encoding tables of spec/30_encoding.md. Names are
tags: 1 ctrl, 2 stat, 3 free, 4 a, 5 b, 6 c. -/

namespace Sys2Proof.Tests

open Sys2Proof Sys2Proof.Machine

/-! ## Helpers -/

/-- A small legal choice of parameters. -/
def small : Params :=
  { nameW := some 4, maxRegs := some 2, maxSegs := some 3, maxBits := some 16, maxBytes := some 2,
    devW := some 7, raW := some 8, elemW := some 2, valW := some 17, tstatW := some 4 }

/-- A segment with its stored bits given as 0s and 1s. -/
def sg (name lsb msb : Nat) (bits : List Nat) : Segment :=
  { name := name, lsb := lsb, msb := msb, bits := bitsOf bits }

/-- A Readable and Writable register. -/
def rw (name raddr : Nat) (segs : List Segment) : RegCtx :=
  { name := name, raddr := raddr, mode := { readable := true, writable := true }, segs := segs }

/-- A register with no access. -/
def shut (name raddr : Nat) (segs : List Segment) : RegCtx :=
  { name := name, raddr := raddr, mode := { readable := false, writable := false }, segs := segs }

/-- A block with a bank, and the transport's answers to come. -/
def blk (bank : List RegCtx) (answers : List TransportAnswer) : State :=
  { State.resetWith small 5 with bank := bank, answers := answers }

/-- A block whose transport is not ready. -/
def deaf (bank : List RegCtx) : State :=
  { blk bank [] with treqReady := false }

/-- A successful answer. -/
def ans (bytes : List Byte) : TransportAnswer :=
  { tstatus := 0, rbytes := bytes }

/-- The register of most tests: two windows that partition bits 0 to 7. -/
def ctrl : RegCtx :=
  rw 1 0x10 [sg 4 0 2 [0, 1, 1], sg 5 3 7 [1, 0, 0, 0, 1]]

/-- A block with the one register `ctrl` and nothing to answer. -/
def one : State :=
  blk [ctrl] []

/-- `ctrl` behind a register that is not asked for. -/
def two : State :=
  blk [shut 2 0x20 [], ctrl] []

/-- The status, the detail and one result field of what a command answers. -/
def answer {α : Type} (f : Results → α) (o : Result) : Option (Status × Detail × α) :=
  match o with
  | .next t => t.offered.map fun r => (r.status, r.detail, f r.results)
  | _ => none

/-- The status and the detail of what a command answers. -/
def verdict (o : Result) : Option (Status × Detail) :=
  match o with
  | .next t => t.offered.map fun r => (r.status, r.detail)
  | _ => none

/-- The segments of the bank, and the transport calls, after a command. -/
def effect (o : Result) : Option (List (List Segment) × List TransportRequest) :=
  match o with
  | .next t => some (t.bank.map RegCtx.segs, t.calls)
  | _ => none

/-- What holds at a capacity's value holds at every value the capacity has. -/
theorem bound {o : Option Nat} {k : Nat} {P : Nat → Prop} (ho : o = some k) (hP : P k) : ∀ m, o = some m → P m := by
  intro m hm
  rw [ho] at hm
  cases hm
  exact hP

/-! ## WellFormed: an ill-formed command for each check -/

theorem test_small_is_legal : small.wf = true := by decide
theorem test_wf_accepts : (Instr.segadd 15 15 1000 1000).wf small = true := by decide
theorem test_wf_refuses_reg : (Instr.read 16).wf small = false := by decide
theorem test_wf_refuses_seg : (Instr.segint 1 16).wf small = false := by decide
theorem test_wf_refuses_raddr : (Instr.regadd 1 256 { readable := true, writable := true }).wf small = false := by decide
theorem test_wf_refuses_elem : (Instr.toint [0, 4, 1]).wf small = false := by decide
theorem test_wf_refuses_value : (Instr.tobits 65536 3).wf small = false := by decide
theorem test_wf_refuses_negative : (Instr.tobits (-65537) 3).wf small = false := by decide
theorem test_step_refuses_ill_formed :
    step { one with commands := [encode (.read 16)] } = .refused .recordDoesNotFit := by rfl

/-! ## Decode: every command's `op`, written out from R52, with the fields its format names (R51) -/

/-- A record with every field set, so that a decoding shows which fields it reads. -/
def full (op : BitVec 8) : CommandRecord :=
  { op := op, reg := 1, seg := 4, n0 := 10, n1 := 11, ival := -12, raddr := 0x10, mode := 0b10#2,
    vec := [0, 1, 1], bytes := [0xD5#8] }

theorem test_decode_tobits : decode (full 0b00000001#8) = .ok (.tobits (-12) 10) := by rfl
theorem test_decode_toint : decode (full 0b00000010#8) = .ok (.toint [0, 1, 1]) := by rfl
theorem test_decode_totc : decode (full 0b00000011#8) = .ok (.totc [0, 1, 1]) := by rfl
theorem test_decode_nbytes : decode (full 0b00000100#8) = .ok (.nbytes 10) := by rfl
theorem test_decode_padbytes : decode (full 0b00000101#8) = .ok (.padbytes [0, 1, 1]) := by rfl
theorem test_decode_regadd :
    decode (full 0b00010000#8) = .ok (.regadd 1 0x10 { readable := false, writable := true }) := by rfl
theorem test_decode_segadd : decode (full 0b00010001#8) = .ok (.segadd 1 4 10 11) := by rfl
theorem test_decode_regget : decode (full 0b00010010#8) = .ok (.regget 1) := by rfl
theorem test_decode_segget : decode (full 0b00010011#8) = .ok (.segget 1 4) := by rfl
theorem test_decode_totbits : decode (full 0b00010100#8) = .ok (.totbits 1) := by rfl
theorem test_decode_totbytes : decode (full 0b00010101#8) = .ok (.totbytes 1) := by rfl
theorem test_decode_setbits : decode (full 0b00100000#8) = .ok (.setbits 1 4 [0, 1, 1]) := by rfl
theorem test_decode_segupd : decode (full 0b00100001#8) = .ok (.segupd 1 4 [0xD5#8]) := by rfl
theorem test_decode_segint : decode (full 0b00100010#8) = .ok (.segint 1 4) := by rfl
theorem test_decode_segtc : decode (full 0b00100011#8) = .ok (.segtc 1 4) := by rfl
theorem test_decode_read : decode (full 0b00110000#8) = .ok (.read 1) := by rfl
theorem test_decode_write : decode (full 0b00110001#8) = .ok (.write 1) := by rfl

theorem test_decode_reserved :
    [0x00#8, 0x06#8, 0x0F#8, 0x16#8, 0x1F#8, 0x24#8, 0x2F#8, 0x32#8, 0x41#8, 0xFF#8].map Opcode.ofCode =
      List.replicate 10 none := by decide

/-- All eight bits of `op` are significant: exactly 17 values decode. -/
theorem test_decode_seventeen :
    ((List.range 256).filter fun w => (decodeTableWord 8 w).isSome) =
      [1, 2, 3, 4, 5, 16, 17, 18, 19, 20, 21, 32, 33, 34, 35, 48, 49] := by decide

/-- Every word of the opcode table runs as the first command after reset, and is then answered. -/
theorem test_table_words_run :
    ([1, 2, 3, 4, 5, 16, 17, 18, 19, 20, 21, 32, 33, 34, 35, 48, 49].map fun w =>
      verdict (step (State.reset.withFetchWord 8 w))) =
      (List.replicate 6 (some (.ok, .empty)) ++ List.replicate 11 (some (.notFound, .named .register 0))) := by
  rfl

theorem test_reserved_word_is_answered :
    verdict (step (State.reset.withFetchWord 8 0x06)) = some (.illegalCommand, .opcode 0x06#8) := by rfl

/-! ## One step of each command -/

/-- V11 -/
theorem test_tobits :
    answer Results.vec (exec (.tobits 421 9) one) = some (.ok, .empty, bitsOf [1, 0, 1, 0, 0, 1, 0, 1, 1]) := by decide
/-- V4, V5, V7 -/
theorem test_tobits_range :
    [exec (.tobits 8 3) one, exec (.tobits (-1) 4) one, exec (.tobits 1 0) one].map verdict =
      List.replicate 3 (some (.rangeError, .empty)) := by decide
/-- V13, V17 -/
theorem test_toint :
    answer Results.uval (exec (.toint [0, 1, 1]) one) = some (.ok, .empty, 6) ∧
      answer Results.uval (exec (.toint [1, 1, 0]) one) = some (.ok, .empty, 3) := by decide
/-- V18 -/
theorem test_toint_invalid : verdict (exec (.toint [0, 2, 1]) one) = some (.invalidBitValue, .index 1) := by decide
/-- V27, V28 -/
theorem test_totc :
    answer Results.sval (exec (.totc [0, 1, 1, 0, 1, 1, 1, 1]) one) = some (.ok, .empty, -10) ∧
      answer Results.sval (exec (.totc [1, 1, 0]) one) = some (.ok, .empty, 3) := by decide
/-- V29 -/
theorem test_totc_empty : answer Results.sval (exec (.totc []) one) = some (.ok, .empty, 0) := by decide
/-- V30 -/
theorem test_nbytes :
    ([0, 1, 2, 7, 8, 9, 15, 16, 17, 64, 65].map fun n => answer Results.uval (exec (.nbytes n) one)) =
      [0, 1, 1, 1, 1, 2, 2, 2, 3, 8, 9].map fun k => some (.ok, .empty, k) := by decide
/-- V38 -/
theorem test_padbytes :
    answer Results.bytes (exec (.padbytes [1, 0, 1, 0, 1, 0, 1, 1, 0, 0, 1, 1]) one) =
      some (.ok, .empty, [213#8, 12#8]) := by decide
/-- V34, V37 -/
theorem test_padbytes_order :
    answer Results.bytes (exec (.padbytes [1, 1, 1, 1, 1, 1, 1, 1, 1]) one) = some (.ok, .empty, [255#8, 1#8]) ∧
      answer Results.bytes (exec (.padbytes [0, 0, 0, 0, 0, 0, 0, 1]) one) = some (.ok, .empty, [128#8]) := by decide
/-- K3, K4 -/
theorem test_regadd :
    verdict (exec (.regadd 1 0x22 { readable := true, writable := false }) one) =
        some (.duplicateName, .named .register 1) ∧
      answer Results.n0 (exec (.regadd 2 0x10 { readable := true, writable := false }) one) = some (.ok, .empty, 1) := by
  decide
/-- K6, K8, K9 -/
theorem test_segadd_errors :
    verdict (exec (.segadd 1 6 5 4) one) = some (.configurationError, .pair 5 4) ∧
      verdict (exec (.segadd 1 4 5 4) one) = some (.configurationError, .pair 5 4) ∧
      verdict (exec (.segadd 1 4 2 3) one) = some (.duplicateName, .named .segment 4) := by decide
/-- K10: a segment may bear a register's name; it is zero and takes the next slot. -/
theorem test_segadd :
    answer Results.n0 (exec (.segadd 1 1 2 7) one) = some (.ok, .empty, 2) ∧
      effect (exec (.segadd 1 1 2 7) one) = some ([ctrl.segs ++ [sg 1 2 7 [0, 0, 0, 0, 0, 0]]], []) := by decide
/-- K14 -/
theorem test_regget :
    answer (fun f => (f.raddr, f.mode, f.uval, f.n0)) (exec (.regget 1) two) =
      some (.ok, .empty, 0x10, { readable := true, writable := true }, 2, 1) := by decide
/-- K12 (of the second segment) -/
theorem test_segget :
    answer (fun f => (f.n0, f.n1)) (exec (.segget 1 5) two) = some (.ok, .empty, 3, 7) ∧
      answer (fun f => (f.vec, f.uval)) (exec (.segget 1 5) two) = some (.ok, .empty, bitsOf [1, 0, 0, 0, 1], 1) := by
  decide
/-- spec/95, after K17: segments `[0..3]`, `[4..11]` give 12 and 2, and `[0..2]`, `[2..4]` give 6 and 1. -/
theorem test_totals :
    answer Results.uval (exec (.totbits 1) (blk [rw 1 0 [sg 4 0 3 [], sg 5 4 11 []]] [])) = some (.ok, .empty, 12) ∧
      answer Results.uval (exec (.totbytes 1) (blk [rw 1 0 [sg 4 0 3 [], sg 5 4 11 []]] [])) = some (.ok, .empty, 2) ∧
      answer Results.uval (exec (.totbits 1) (blk [rw 1 0 [sg 4 0 2 [], sg 5 2 4 []]] [])) = some (.ok, .empty, 6) := by
  decide
/-- G1: the one segment named takes the new bits. -/
theorem test_setbits :
    effect (exec (.setbits 1 4 [1, 0, 1]) one) = some ([[sg 4 0 2 [1, 0, 1], sg 5 3 7 [1, 0, 0, 0, 1]]], []) := by decide
/-- G6, G7 -/
theorem test_setbits_errors :
    verdict (exec (.setbits 1 4 [3, 2, 1]) one) = some (.invalidBitValue, .index 0) ∧
      verdict (exec (.setbits 1 4 [0, 2]) one) = some (.lengthMismatch, .pair 3 2) := by decide
/-- G11: the window crosses the byte boundary. -/
theorem test_segupd :
    effect (exec (.segupd 1 4 [213#8, 2#8]) (blk [rw 1 0 [sg 4 6 9 [0, 0, 0, 0]]] [])) =
      some ([[sg 4 6 9 [1, 1, 0, 1]]], []) := by decide
/-- G12 -/
theorem test_segupd_short :
    verdict (exec (.segupd 1 4 [213#8]) (blk [rw 1 0 [sg 4 6 9 [0, 0, 0, 0]]] [])) =
      some (.insufficientData, .insufficient 4 2 1) := by decide
/-- G9 -/
theorem test_segint : answer Results.uval (exec (.segint 1 4) one) = some (.ok, .empty, 6) := by decide
/-- G9 -/
theorem test_segtc : answer Results.sval (exec (.segtc 1 4) one) = some (.ok, .empty, -2) := by decide
/-- W20: a gap and an overlap do not hinder a READ. -/
theorem test_read :
    effect (exec (.read 1) (blk [rw 1 9 [sg 4 0 2 [0, 0, 0], sg 5 4 6 [0, 0, 0], sg 6 2 3 [0, 0]]] [ans [0xA5#8]])) =
      some ([[sg 4 0 2 [1, 0, 1], sg 5 4 6 [0, 1, 0], sg 6 2 3 [1, 0]]], [.readBytes 5 9 1]) := by decide
/-- W21 (with a window inside the small block's bits): the covered segment before the first uncovered one is updated. -/
theorem test_read_partial :
    effect (exec (.read 1) (blk [rw 1 9 [sg 4 0 3 [0, 0, 0, 0], sg 5 12 15 [1, 1, 1, 1]]] [ans [0x3C#8]])) =
        some ([[sg 4 0 3 [0, 0, 1, 1], sg 5 12 15 [1, 1, 1, 1]]], [.readBytes 5 9 1]) ∧
      verdict (exec (.read 1) (blk [rw 1 9 [sg 4 0 3 [0, 0, 0, 0], sg 5 12 15 [1, 1, 1, 1]]] [ans [0x3C#8]])) =
        some (.insufficientData, .insufficient 5 2 1) := by decide
/-- W9: slot order does not affect the bytes. -/
theorem test_write :
    effect (exec (.write 1) (blk [rw 1 9 [sg 4 4 7 [0, 1, 0, 1], sg 5 0 3 [1, 0, 1, 0]]] [ans []])) =
      some ([[sg 4 4 7 [0, 1, 0, 1], sg 5 0 3 [1, 0, 1, 0]]], [.writeBytes 5 9 [165#8]]) := by decide
/-- W6, W7 -/
theorem test_write_refuses :
    verdict (exec (.write 1) (blk [rw 1 9 [sg 4 0 2 [], sg 5 2 3 [], sg 6 5 6 []]] [])) =
        some (.continuityError, .gaps [4]) ∧
      verdict (exec (.write 1) (blk [rw 1 9 [sg 4 0 3 [], sg 5 2 5 [], sg 6 3 3 []]] [])) =
        some (.overlapError, .conflicts [(2, [4, 5]), (3, [4, 5, 6])]) := by decide
/-- W16: the status word is in the detail, and the segments keep their bits. -/
theorem test_write_fails :
    verdict (exec (.write 1) (blk [ctrl] [{ tstatus := 5, rbytes := [] }])) = some (.transportError, .tstatus 5) ∧
      effect (exec (.write 1) (blk [ctrl] [{ tstatus := 5, rbytes := [] }])) =
        some ([ctrl.segs], [.writeBytes 5 0x10 [0x8E#8]]) := by decide
/-- R46 -/
theorem test_request_kinds :
    (TransportRequest.readBytes 5 0x10 1).kind = 0 ∧ (TransportRequest.writeBytes 5 0x10 [0x8E#8]).kind = 1 := by decide
/-- R32, log 19: the largest word of 4 bits, and what lies above 4 bits. -/
theorem test_status_word :
    ({ tstatus := 15, rbytes := [] } : TransportAnswer).status small = 15 ∧
      ({ tstatus := 21, rbytes := [] } : TransportAnswer).status small = 5 := by decide
/-- Q8: what BANK.ADD leaves when its second segment is refused. -/
theorem test_bank_add :
    (bankAdd 1 0x50 { readable := true, writable := true } [(4, 0, 2), (5, 5, 4), (6, 3, 7)] (blk [] [])).map
        (fun x => (x.1.status, x.2.bank)) =
      some (.configurationError, [rw 1 0x50 [sg 4 0 2 [0, 0, 0]]]) := by decide
/-- Q5, Q7 (the set stays although the write fails) -/
theorem test_bank_set :
    ((bankSetint 1 4 8 true writeStrategy one).map fun x => (x.1.status, x.2.bank)) = some (.rangeError, [ctrl]) ∧
      ((bankSetbits 1 4 [0, 1] true writeStrategy (blk [rw 1 9 [sg 4 0 1 [0, 0], sg 5 3 3 [0]]] [])).map
          fun x => (x.1.status, x.2.bank)) =
        some (.continuityError, [rw 1 9 [sg 4 0 1 [0, 1], sg 5 3 3 [0]]]) := by decide

/-! ## Witnesses: for each statement with hypotheses, a state and operands that meet them, at the bounds of each clause -/

/-- The lookup of register 1 and its segment 5, behind entries that are not asked for. -/
theorem witness_found :
    two.bank = [shut 2 0x20 []] ++ ctrl :: [] ∧ (∀ d ∈ [shut 2 0x20 []], d.name ≠ 1) ∧ ctrl.name = 1 ∧
      ctrl.segs = [sg 4 0 2 [0, 1, 1]] ++ sg 5 3 7 [1, 0, 0, 0, 1] :: [] ∧
      (∀ T ∈ [sg 4 0 2 [0, 1, 1]], T.name ≠ 5) ∧ (sg 5 3 7 [1, 0, 0, 0, 1]).name = 5 := by decide

theorem witness_UnnamedFieldsHaveNoEffect :
    one.rst = false ∧ one.phase = .idle ∧ (full 0x12#8).op = (encode (.regget 1)).op ∧
      ∀ o, Opcode.ofCode (full 0x12#8).op = some o →
        (full 0x12#8).restrict o.format = (encode (.regget 1)).restrict o.format := by
  refine ⟨rfl, rfl, rfl, fun o h => ?_⟩
  have : Opcode.ofCode (full 0x12#8).op = some .regget := rfl
  obtain rfl := Option.some.inj (this.symm.trans h)
  rfl

/-- The bounds of each range of reserved codes. -/
theorem witness_ReservedOpsAnswerIllegalCommand :
    ∀ op ∈ [0x00#8, 0x06#8, 0x0F#8, 0x16#8, 0x1F#8, 0x24#8, 0x2F#8, 0x32#8, 0xFF#8],
      op = 0x00#8 ∨ (0x06#8 ≤ op ∧ op ≤ 0x0F#8) ∨ (0x16#8 ≤ op ∧ op ≤ 0x1F#8) ∨
        (0x24#8 ≤ op ∧ op ≤ 0x2F#8) ∨ (0x32#8 ≤ op ∧ op ≤ 0xFF#8) := by decide

theorem witness_StepRunsTheDecodedCommand :
    (decode (full 0x12#8) = .ok (.regget 1) ∧ (Instr.regget 1).wf one.params = true) ∧
      (decode (encode (.regget 16)) = .ok (.regget 16) ∧ (Instr.regget 16).wf one.params = false) := ⟨⟨rfl, rfl⟩, rfl, rfl⟩

theorem witness_legal : one.Legal ∧ two.Legal :=
  ⟨⟨by decide, by decide, by decide, trivial⟩, ⟨by decide, by decide, by decide, trivial⟩⟩

/-- A transfer in flight in a legal state, waiting for its answer; one more, whose request is still offered. -/
def inFlight (answers : List TransportAnswer) : State :=
  { blk [ctrl] answers with phase := .waiting { reg := 1, request := .readBytes 5 0x10 1 } }

/-- A transfer whose request the transport has not taken. -/
def offering : State :=
  { deaf [ctrl] with phase := .requesting { reg := 1, request := .readBytes 5 0x10 1 } }

/-- A WRITE waiting for its answer. -/
def inFlightWrite : State :=
  { blk [ctrl] [ans []] with phase := .waiting { reg := 1, request := .writeBytes 5 0x10 [0x8E#8] } }

theorem witness_legal_in_flight : (inFlight [ans [0#8]]).Legal ∧ offering.Legal ∧ inFlightWrite.Legal :=
  ⟨⟨by decide, by decide, by decide, ctrl, by decide, by decide⟩, ⟨by decide, by decide, by decide, ctrl, by decide, by decide⟩,
    ⟨by decide, by decide, by decide, ctrl, by decide, by decide⟩⟩

/-- LegalStatesDoNotStop, StepKeepsLegalStates, NothingIsEverRemoved, ParametersAndStrapAreConstant,
CallsAppearOneAtATime, OneResponsePerCommand: legal states with a next state, one with a call. -/
theorem witness_steps :
    (∃ t, step { two with commands := [encode (.segint 1 4)] } = .next t ∧ t.calls.length = 0) ∧
      (∃ t, step { one with commands := [encode (.read 1)] } = .next t ∧ t.calls = [.readBytes 5 0x10 1]) ∧
      (∃ t, step (inFlight [ans [0#8]]) = .next t ∧ t.busy = true) :=
  ⟨⟨_, rfl, rfl⟩, ⟨_, rfl, rfl⟩, ⟨_, rfl, rfl⟩⟩

/-- Width 17 exceeds MAX_BITS = 16 and width 16 does not; -1 and 2^16 are out of range, 0 and 2^16 - 1 in range. -/
theorem witness_TobitsAnswersBitsOrRangeError :
    (∃ m, one.params.maxBits = some m ∧ m < 17) ∧ (∀ m, one.params.maxBits = some m → 16 ≤ m) ∧
      ((-1 : Int) < 0 ∨ (2 : Int) ^ 16 ≤ -1) ∧ ((65536 : Int) < 0 ∨ (2 : Int) ^ 16 ≤ 65536) ∧
      (full 0x01#8).op = 0x01#8 ∧ (0 : Nat) < 2 ^ 16 ∧ (65535 : Int) = (65535 : Nat) ∧ 65535 < 2 ^ 16 :=
  ⟨⟨16, rfl, by decide⟩, bound rfl (by decide), by decide, by decide, rfl, by decide, rfl, by decide⟩

/-- TOINT, TOTC and PADBYTES on 16 elements (MAX_BITS), the last one set; and on none. -/
theorem witness_conversion_operands :
    (∀ m, one.params.maxBits = some m → (List.replicate 16 1).length ≤ m) ∧ (∀ e ∈ List.replicate 16 1, e ≤ 1) ∧
      (List.replicate 16 1).getLast? = some 1 ∧ (∀ m, one.params.maxBits = some m → ([] : List Nat).length ≤ m) :=
  ⟨bound rfl (by decide), by decide, by decide, bound rfl (by decide)⟩

theorem witness_ConversionOperandsAreChecked :
    (∃ m, one.params.maxBits = some m ∧ m < (List.replicate 17 1).length) ∧
      (∀ m, one.params.maxBits = some m → [0, 2, 3].length ≤ m) ∧ [0, 2, 3] = [0] ++ 2 :: [3] ∧
      (∀ d ∈ [0], d ≤ 1) ∧ 1 < 2 ∧
      (∀ m, one.params.maxBits = some m → (List.replicate 16 1).length ≤ m) ∧ (∀ e ∈ List.replicate 16 1, e ≤ 1) ∧
      (Instr.toint [1, 0]).wf { Params.unbounded with elemW := some 1 } = true :=
  ⟨⟨16, rfl, by decide⟩, bound rfl (by decide), by decide, by decide, by decide, bound rfl (by decide), by decide,
    by decide⟩

theorem witness_ConversionLaws :
    0 < 2 ^ 0 ∧ 7 < 2 ^ 3 ∧ ¬ 8 < 2 ^ 3 ∧ (∀ m, one.params.maxBits = some m → 3 ≤ m) ∧
      ((8 : Int) < 0 ∨ (2 : Int) ^ 3 ≤ 8) ∧ ((-1 : Int) < 0 ∨ (2 : Int) ^ 3 ≤ -1) ∧ 1 ≤ 1 ∧ 1 ≤ [true].length :=
  ⟨by decide, by decide, by decide, bound rfl (by decide), by decide, by decide, by decide, by decide⟩

theorem witness_ConversionsReadNoState :
    namedReg (.toint [1]) = none ∧ one.params = small ∧ two.params = small ∧ one.bank ≠ two.bank := by decide

theorem witness_NbytesAnswersTheCeiling : (full 0x04#8).op = 0x04#8 ∧ (full 0x10#8).op = 0x10#8 := ⟨rfl, rfl⟩

/-- `two` is at MAX_REGS = 2, `one` is not. -/
theorem witness_RegaddAppendsAContext :
    (full 0x10#8).op = 0x10#8 ∧ (∃ c ∈ one.bank, c.name = 1) ∧
      ((∀ c ∈ two.bank, c.name ≠ 3) ∧ two.params.maxRegs = some two.bank.length) ∧
      ((∀ c ∈ one.bank, c.name ≠ 3) ∧ one.params.maxRegs ≠ some one.bank.length) := by decide

/-- A register at MAX_SEGS = 3. -/
def fullCtrl : RegCtx :=
  rw 1 0x10 [sg 4 0 2 [], sg 5 3 7 [], sg 6 8 8 []]

/-- The lookups of `witness_found`; `msb` 16 is beyond MAX_BITS = 16 and 15 is not; a window of one bit. -/
theorem witness_SegaddAppendsASegment :
    4 < 5 ∧ (15 ≤ 15 ∧ ∃ S ∈ ctrl.segs, S.name = 4) ∧ (∀ S ∈ ctrl.segs, S.name ≠ 7) ∧
      (∃ m, two.params.maxBits = some m ∧ m ≤ 16) ∧ (∀ m, two.params.maxBits = some m → 15 < m) ∧
      (two.params.maxSegs = some fullCtrl.segs.length ∧ ∀ S ∈ fullCtrl.segs, S.name ≠ 7) ∧
      two.params.maxSegs ≠ some ctrl.segs.length :=
  ⟨by decide, by decide, by decide, ⟨16, rfl, by decide⟩, bound rfl (by decide), by decide, by decide⟩

theorem witness_UnknownNamesAnswerNotFound :
    ((∀ c ∈ two.bank, c.name ≠ 3) ∧ namedReg (.segget 3 4) = some 3 ∧ (Instr.segget 3 4).opcode ≠ .regadd) ∧
      ∀ S ∈ ctrl.segs, S.name ≠ 7 := by decide

/-- Segment 5 is 5 bits wide: vectors of 4, 5 (with a bad element) and 5 elements. -/
theorem witness_SetbitsReplacesTheVector :
    [1, 1, 1, 1].length ≠ 7 - 3 + 1 ∧
      ([1, 1, 2, 0, 3].length = 7 - 3 + 1 ∧ [1, 1, 2, 0, 3] = [1, 1] ++ 2 :: [0, 3] ∧ (∀ d ∈ [1, 1], d ≤ 1) ∧ 1 < 2) ∧
      ([1, 0, 1, 0, 1].length = 7 - 3 + 1 ∧ ∀ e ∈ [1, 0, 1, 0, 1], e ≤ 1) := by decide

/-- Segment 5 ends at bit 7: 3 bytes exceed MAX_BYTES = 2, none are too few, 1 is enough. -/
theorem witness_SegupdStoresTheWindow :
    (∃ m, two.params.maxBytes = some m ∧ m < 3) ∧ (∀ m, two.params.maxBytes = some m → 2 ≤ m) ∧
      (∀ m, two.params.maxBytes = some m → 0 ≤ m) ∧ 0 < 7 / 8 + 1 ∧ 7 / 8 + 1 ≤ 1 :=
  ⟨⟨2, rfl, by decide⟩, bound rfl (by decide), bound rfl (by decide), by decide, by decide⟩

/-- A READ of `ctrl` (8 bits, 1 byte) that is answered with exactly one byte. -/
theorem witness_ReadUnpacksEverySegment :
    ctrl.mode.readable = true ∧ 1 = ((ctrl.segs.map fun S => S.msb - S.lsb + 1).sum + 7) / 8 ∧
      (∀ m, one.params.maxBytes = some m → 1 ≤ m) ∧ one.treqReady = true ∧
      (blk [ctrl] [ans [0xA5#8]]).answers.drop one.stale = ans [0xA5#8] :: [] ∧ (ans [0xA5#8]).status small = 0 ∧
      ∀ S ∈ ctrl.segs, S.msb / 8 + 1 ≤ (ans [0xA5#8]).rbytes.length :=
  ⟨rfl, by decide, bound rfl (by decide), rfl, rfl, rfl, by decide⟩

/-- Windows `[0..3]` and `[8..11]`: 8 bits, so one byte is asked for and the second window is not covered. -/
def sparse : RegCtx :=
  rw 1 9 [sg 4 0 3 [0, 0, 0, 0], sg 5 8 11 [1, 1, 1, 1]]

theorem witness_ReadStopsAtTheFirstUncoveredSegment :
    (blk [sparse] [ans [0x3C#8]]).bank = [] ++ sparse :: [] ∧ sparse.name = 1 ∧ sparse.mode.readable = true ∧
      1 = ((sparse.segs.map fun T => T.msb - T.lsb + 1).sum + 7) / 8 ∧
      (∀ m, (blk [sparse] [ans [0x3C#8]]).params.maxBytes = some m → 1 ≤ m) ∧
      (blk [sparse] [ans [0x3C#8]]).treqReady = true ∧
      (blk [sparse] [ans [0x3C#8]]).answers.drop 0 = ans [0x3C#8] :: [] ∧ (ans [0x3C#8]).status small = 0 ∧
      sparse.segs = [sg 4 0 3 [0, 0, 0, 0]] ++ sg 5 8 11 [1, 1, 1, 1] :: [] ∧
      (∀ T ∈ [sg 4 0 3 [0, 0, 0, 0]], T.msb / 8 + 1 ≤ (ans [0x3C#8]).rbytes.length) ∧
      (ans [0x3C#8]).rbytes.length < (sg 5 8 11 [1, 1, 1, 1]).msb / 8 + 1 :=
  ⟨rfl, rfl, rfl, by decide, bound rfl (by decide), rfl, rfl, rfl, rfl, by decide, by decide⟩

/-- A register whose windows overlap so much that a READ asks for 3 bytes, over MAX_BYTES = 2. -/
def wide : RegCtx :=
  rw 1 9 [sg 4 0 7 [], sg 5 0 7 [], sg 6 0 7 []]

/-- A register that is not Readable; one that asks for too many bytes; `ctrl` and a transport that fails. -/
theorem witness_ReadErrorsChangeNoSegment :
    ((blk [shut 1 9 []] []).bank = [] ++ shut 1 9 [] :: [] ∧ (shut 1 9 []).mode.readable = false ∧
        0 = (((shut 1 9 []).segs.map fun S => S.msb - S.lsb + 1).sum + 7) / 8) ∧
      ((blk [wide] []).bank = [] ++ wide :: [] ∧ wide.mode.readable = true ∧
        3 = ((wide.segs.map fun S => S.msb - S.lsb + 1).sum + 7) / 8 ∧
        ∃ m, (blk [wide] []).params.maxBytes = some m ∧ m < 3) ∧
      ((blk [ctrl] [{ tstatus := 5, rbytes := [] }]).answers.drop 0 = { tstatus := 5, rbytes := [] } :: [] ∧
        1 = ((ctrl.segs.map fun S => S.msb - S.lsb + 1).sum + 7) / 8 ∧
        (∀ m, one.params.maxBytes = some m → 1 ≤ m) ∧ one.treqReady = true ∧
        ({ tstatus := 5, rbytes := [] } : TransportAnswer).status small ≠ 0) :=
  ⟨⟨rfl, rfl, by decide⟩, ⟨rfl, rfl, by decide, 2, rfl, by decide⟩, rfl, by decide, bound rfl (by decide), rfl,
    by decide⟩

/-- `ctrl` partitions `[0..7]`. CheckerPassesExactlyThePartitions and PartitionWidthsSumToTheRegister too. -/
theorem witness_WriteSendsThePackedSegments :
    (blk [ctrl] [ans []]).bank = [] ++ ctrl :: [] ∧ ctrl.name = 1 ∧ ctrl.mode.writable = true ∧
      (∀ S ∈ ctrl.segs, S.lsb ≤ S.msb ∧ S.bits.length = S.msb - S.lsb + 1) ∧
      IsMaxBit ctrl.segs 7 ∧ Partitions ctrl.segs 7 ∧ (blk [ctrl] [ans []]).treqReady = true ∧
      (blk [ctrl] [ans []]).answers.drop 0 = ans [] :: [] ∧ (ans []).status small = 0 ∧
      (blk [ctrl] [{ tstatus := 5, rbytes := [] }]).answers.drop 0 = { tstatus := 5, rbytes := [] } :: [] ∧
      ({ tstatus := 5, rbytes := [] } : TransportAnswer).status small ≠ 0 := by decide

/-- A gap at bit 3. -/
def gappy : RegCtx :=
  rw 1 9 [sg 4 0 2 [0, 0, 0], sg 5 4 6 [0, 0, 0]]

/-- An overlap at bit 2 and no gap. -/
def clash : RegCtx :=
  rw 1 9 [sg 4 0 2 [0, 0, 0], sg 5 2 4 [0, 0, 0]]

theorem witness_WriteRefusesBadLayouts :
    ((blk [shut 1 9 []] []).bank = [] ++ shut 1 9 [] :: [] ∧ (shut 1 9 []).mode.writable = false) ∧
      ((blk [rw 1 9 []] []).bank = [] ++ rw 1 9 [] :: [] ∧ (rw 1 9 []).mode.writable = true ∧ (rw 1 9 []).segs = []) ∧
      ((blk [gappy] []).bank = [] ++ gappy :: [] ∧ gappy.mode.writable = true ∧ IsMaxBit gappy.segs 6 ∧
        (3 ≤ 6 ∧ ∀ S ∈ gappy.segs, ¬(S.lsb ≤ 3 ∧ 3 ≤ S.msb))) ∧
      ((blk [clash] []).bank = [] ++ clash :: [] ∧ clash.mode.writable = true ∧ IsMaxBit clash.segs 4 ∧
        (∀ g, g ≤ 4 → ∃ S ∈ clash.segs, S.lsb ≤ g ∧ g ≤ S.msb) ∧ ¬ Partitions clash.segs 4) := by decide

/-- `ctrl` written as byte 0x8E, which the transport then returns. -/
theorem witness_WriteThenReadRoundTrips :
    (blk [ctrl] [ans [], ans [0x8E#8]]).Legal ∧
      (blk [ctrl] [ans [], ans [0x8E#8]]).findReg 1 = some ctrl ∧ ctrl.mode.readable = true ∧
      ctrl.mode.writable = true ∧ IsMaxBit ctrl.segs 7 ∧ Partitions ctrl.segs 7 ∧
      (blk [ctrl] [ans [], ans [0x8E#8]]).answers.drop 0 = ans [] :: { tstatus := 0, rbytes := [0x8E#8] } :: [] ∧
      pack ctrl.segs = [0x8E#8] :=
  ⟨⟨by decide, by decide, by decide, trivial⟩, by decide, rfl, rfl, by decide, by decide, rfl, by decide⟩

/-- A READ and a WRITE of `ctrl` that pass their checks, before a transport that is not ready, and before one that is
ready and silent. -/
theorem witness_TransfersWaitForTheTransport :
    one.bank = [] ++ ctrl :: [] ∧ (ctrl.mode.readable = true ∧ ctrl.mode.writable = true) ∧
      1 = ((ctrl.segs.map fun S => S.msb - S.lsb + 1).sum + 7) / 8 ∧ (∀ m, one.params.maxBytes = some m → 1 ≤ m) ∧
      (IsMaxBit ctrl.segs 7 ∧ Partitions ctrl.segs 7) ∧ (deaf [ctrl]).treqReady = false ∧ one.treqReady = true ∧
      one.answers.drop one.stale = [] :=
  ⟨rfl, ⟨rfl, rfl⟩, by decide, bound rfl (by decide), by decide, rfl, rfl, rfl⟩

/-- Both outcomes of the handshake: a transport that is not ready, and one that takes the request, silent or not. -/
theorem witness_RequestsPassByHandshake :
    (offering.rst = false ∧ offering.phase = .requesting { reg := 1, request := .readBytes 5 0x10 1 } ∧
        offering.treqReady = false) ∧
      ({ offering with treqReady := true } : State).answers.drop 0 = [] ∧
      ({ offering with treqReady := true, answers := [ans [0#8]] } : State).answers.drop 0 ≠ [] :=
  ⟨⟨rfl, rfl, rfl⟩, rfl, by decide⟩

theorem witness_SilentTransportHangsTheBlock :
    (inFlight []).rst = false ∧ (inFlight []).phase = .waiting { reg := 1, request := .readBytes 5 0x10 1 } ∧
      (inFlight []).answers.drop (inFlight []).stale = [] := ⟨rfl, rfl, rfl⟩

/-- A failed answer, a WRITE's success, a READ's one byte (enough) and its empty answer (too few); the states are legal
by `witness_legal_in_flight`. -/
theorem witness_AnswerEndsTheWait :
    (∃ t, step (inFlight [{ tstatus := 5, rbytes := [] }]) = .next t ∧ t.status = some .transportError) ∧
      (∃ t, step inFlightWrite = .next t ∧ t.status = some .ok) ∧
      (∃ t, step (inFlight [ans [0#8]]) = .next t ∧ t.status = some .ok) ∧
      (∃ t, step (inFlight [ans []]) = .next t ∧ t.status = some .insufficientData) ∧
      (inFlight [ans []]).findReg 1 = some ctrl :=
  ⟨⟨_, rfl, rfl⟩, ⟨_, rfl, rfl⟩, ⟨_, rfl, rfl⟩, ⟨_, rfl, rfl⟩, by decide⟩

/-- CommandsRaiseOnlyTheirKinds, ErrorsLeaveTheBankUnchanged, OnlyReadAndWriteCallTheTransport,
OtherRegistersAreUntouched, OnlyFiveCommandsChangeTheBank: a command with an error, one with `OK` that changes the bank,
one that calls the transport, one that does not. -/
theorem witness_commands :
    (∃ t, exec (.segint 3 4) two = .next t ∧ t.status = some .notFound) ∧
      (∃ t, exec (.setbits 1 4 [1, 0, 1]) two = .next t ∧ t.bank ≠ two.bank ∧
        two.bank[0]? = some (shut 2 0x20 []) ∧ namedReg (.setbits 1 4 [1, 0, 1]) ≠ some (shut 2 0x20 []).name) ∧
      (∃ t, exec (.write 1) two = .next t ∧ t.calls ≠ two.calls) ∧
      usesTransport (.segint 1 4) = false ∧ ∃ t, exec (.segint 1 4) two = .next t :=
  ⟨⟨_, rfl, rfl⟩, ⟨_, rfl, by decide, by decide, by decide⟩, ⟨_, rfl, by decide⟩, rfl, ⟨_, rfl⟩⟩

theorem witness_UnboundedBlocksNeverExceed :
    Params.unbounded.maxRegs = none ∧ Params.unbounded.maxSegs = none ∧ Params.unbounded.maxBits = none ∧
      Params.unbounded.maxBytes = none ∧ ∃ t, exec (.tobits 1 40) State.reset = .next t :=
  ⟨rfl, rfl, rfl, rfl, ⟨_, rfl⟩⟩

/-- A block with one-bit elements. -/
def thin : State :=
  { one with params := { small with elemW := some 1 }, commands := [encode (.setbits 1 4 [1, 0, 1])] }

theorem witness_OneBitElementsAreNeverInvalid :
    thin.params.elemW = some 1 ∧ thin.phase = .idle ∧ thin.rst = false ∧
      ∃ t, step thin = .next t ∧ t.status = some .ok := ⟨rfl, rfl, rfl, ⟨_, rfl, rfl⟩⟩

/-- A block that offers a response. -/
def offeringResponse : State :=
  { one with phase := .responding { status := .notFound, results := one.freeResults, detail := .named .register 3 } }

theorem witness_ResponsesPassByHandshake :
    (∃ r, offeringResponse.rst = false ∧ offeringResponse.phase = .responding r ∧ offeringResponse.respReady = true) ∧
      ∃ r, ({ offeringResponse with respReady := false } : State).phase = .responding r := ⟨⟨_, rfl, rfl, rfl⟩, ⟨_, rfl⟩⟩

/-- Reset in the idle phase, and of a transfer that waits. -/
theorem witness_ResetEmptiesTheBank :
    ({ one with rst := true } : State).rst = true ∧ (∀ x, ({ one with rst := true } : State).phase ≠ .waiting x) ∧
      ({ inFlight [] with rst := true } : State).rst = true ∧
      ∃ x, ({ inFlight [] with rst := true } : State).phase = .waiting x :=
  ⟨rfl, fun _ => Phase.noConfusion, rfl, ⟨_, rfl⟩⟩

theorem witness_LateAnswersAreDiscarded :
    ({ inFlight [ans [1#8], ans [2#8]] with rst := true } : State).rst = true ∧
      (inFlight [ans [1#8], ans [2#8]]).phase = .waiting { reg := 1, request := .readBytes 5 0x10 1 } ∧
      (inFlight [ans [1#8], ans [2#8]]).stale = 0 ∧
      (inFlight [ans [1#8], ans [2#8]]).answers = ans [1#8] :: ans [2#8] :: [] ∧
      ∃ t, step { inFlight [ans [1#8], ans [2#8]] with rst := true } = .next t := ⟨rfl, rfl, rfl, rfl, ⟨_, rfl⟩⟩

/-- The largest strap of 7 bits, and the parameters of `State.reset`. -/
theorem witness_ResetStateIsLegal :
    small.wf = true ∧ Params.unbounded.wf = true ∧ fits small.devW 127 = true ∧ fits small.devW 128 = false := by decide

theorem witness_IssueIsTwoSteps :
    ({ one with commands := [encode (.segint 1 4)] } : State).rst = false ∧ one.phase = .idle ∧
      one.respReady = true ∧ (Instr.segint 1 4).wf one.params = true ∧
      ∃ r u, issue (.segint 1 4) { one with commands := [] } = some (r, u) :=
  ⟨rfl, rfl, rfl, by decide, ⟨_, _, rfl⟩⟩

/-- Segment 5 is 5 bits wide and ends below MAX_BITS: -1 and 32 are out of range, 0 and 31 in range. -/
theorem witness_BankSetintStoresOrRefuses :
    (3 ≤ 7 ∧ ∀ m, two.params.maxBits = some m → 7 < m) ∧
      ((-1 : Int) < 0 ∨ (2 : Int) ^ (7 - 3 + 1) ≤ -1) ∧ ((32 : Int) < 0 ∨ (2 : Int) ^ (7 - 3 + 1) ≤ 32) ∧
      (0 ≤ (0 : Int) ∧ (0 : Int) < (2 : Int) ^ (7 - 3 + 1)) ∧ (0 ≤ (31 : Int) ∧ (31 : Int) < (2 : Int) ^ (7 - 3 + 1)) :=
  ⟨⟨by decide, bound rfl (by decide)⟩, by decide, by decide, by decide, by decide⟩

/-- A register whose WRITE finds a gap. -/
def holed : State :=
  blk [rw 1 9 [sg 4 0 1 [0, 0], sg 5 3 3 [0]]] []

/-- A strategy that looks a segment up and then writes. -/
def lookThenWrite (seg : Nat) (reg : Name) : HostSequence :=
  .command (.segget reg seg) fun _ => writeStrategy reg

/-- A set that fails; one that succeeds before a WRITE that fails; strategies whose first command fails and succeeds. -/
theorem witness_BankSetbitsKeepsTheNewBits :
    (∃ r t, issue (.setbits 1 4 [0]) holed = some (r, t) ∧ r.status ≠ .ok) ∧
      ∃ r t, issue (.setbits 1 4 [0, 1]) holed = some (r, t) ∧ r.status = .ok ∧
        (∃ r' u, bankSetbits 1 4 [0, 1] true (s := holed) = some (r', u) ∧ r'.status = .continuityError) ∧
        lookThenWrite 4 1 = .command (.segget 1 4) (fun _ => writeStrategy 1) ∧
        (∃ r' u, issue (.segget 1 4) t = some (r', u) ∧ r'.status = .ok) ∧
        ∃ r' u, issue (.segget 1 9) t = some (r', u) ∧ r'.status ≠ .ok :=
  ⟨⟨_, _, rfl, by decide⟩, _, _, rfl, rfl, ⟨_, _, rfl, rfl⟩, rfl, ⟨_, _, rfl, rfl⟩, _, _, rfl, by decide⟩

/-- An access without a READ, a READ that fails and one that succeeds. -/
theorem witness_AccessorsReadFirstOnRequest :
    (∃ r t, bankGet 1 false one = some (r, t)) ∧ (∃ r t, bankToint 1 4 false one = some (r, t)) ∧
      (∃ r t, bankTotc 1 4 false one = some (r, t)) ∧
      (∃ r t, issue (.read 3) one = some (r, t) ∧ r.status ≠ .ok) ∧
      ∃ r t, issue (.read 1) (blk [ctrl] [ans [0xA5#8]]) = some (r, t) ∧ r.status = .ok :=
  ⟨⟨_, _, rfl⟩, ⟨_, _, rfl⟩, ⟨_, _, rfl⟩, ⟨_, _, rfl, by decide⟩, ⟨_, _, rfl, rfl⟩⟩

/-- A name the bank has; a new name in a full bank; a new name below MAX_REGS. -/
theorem witness_BankAddIsNotAtomic :
    (∃ c ∈ one.bank, c.name = 1) ∧ ((∀ c ∈ two.bank, c.name ≠ 3) ∧ two.params.maxRegs = some two.bank.length) ∧
      (∀ c ∈ one.bank, c.name ≠ 3) ∧ one.params.maxRegs ≠ some one.bank.length := by decide

end Sys2Proof.Tests
end

section
/-! ## What every step keeps: legality, the parameters and the strap (spec/00_scope.md R4; spec/10_state.md R11 to R24) -/

namespace Sys2Proof.Machine

/-! ### The updates of the tables keep the tables legal -/

/-- A table that is within its capacity and not at it has room for one more entry (D6). -/
theorem exceeds_succ_of_not_atCapacity {cap : Option Nat} {n : Nat} (hle : exceeds cap n = false)
    (hne : atCapacity cap n = false) : exceeds cap (n + 1) = false := by
  cases cap with
  | none => rfl
  | some m =>
    simp only [exceeds, atCapacity, decide_eq_false_iff_not, Option.some.injEq] at *
    omega

/-- Keys that are unique stay so when an entry of a new key is appended. -/
theorem nodup_map_append_singleton {α β : Type} {g : α → β} {l : List α} {a : α} (hl : (l.map g).Nodup)
    (ha : ∀ b ∈ l, g b ≠ g a) : ((l ++ [a]).map g).Nodup := by
  have hnew : g a ∉ l.map g := by simpa using ha
  simpa using hl.concat hnew

/-- Keys that are unique stay so under an update that keeps the key. -/
theorem nodup_map_modifyFirst {α β : Type} {p : α → Bool} {f : α → α} {g : α → β} {l : List α}
    (hg : ∀ a, g (f a) = g a) (hl : (l.map g).Nodup) : ((modifyFirst p f l).map g).Nodup := by
  rwa [map_modifyFirst p f g hg]

/-- What holds of every entry and of the update of the entry the lookup finds, holds after the update by name. -/
theorem forall_modifyFirst {α : Type} {p : α → Bool} {f : α → α} {Q : α → Prop} {l : List α} (hl : ∀ a ∈ l, Q a)
    (hf : ∀ a, l.find? p = some a → Q (f a)) : ∀ b ∈ modifyFirst p f l, Q b := by
  induction l with
  | nil => simp [modifyFirst]
  | cons a l ih =>
    obtain ⟨ha, hl⟩ := List.forall_mem_cons.1 hl
    by_cases hp : p a = true
    · simpa [modifyFirst, hp] using ⟨hf a (by simp [hp]), hl⟩
    · simpa [modifyFirst, hp] using ⟨ha, ih hl fun b hb => hf b (by simpa [hp] using hb)⟩

/-- Each segment after READ's loop is an old one, or an old one that has taken its window of the bytes. -/
theorem mem_unpack {y : List Byte} {segs : List Segment} {T : Segment} (h : T ∈ unpack y segs) :
    T ∈ segs ∨ ∃ S ∈ segs, T = { S with bits := extract S.lsb S.msb y } := by
  induction segs with
  | nil => simp [unpack] at h
  | cons S rest ih =>
    by_cases hS : covers S.msb y = true
    · simp only [unpack, hS, if_true, List.mem_cons] at h
      rcases h with rfl | h
      · exact .inr ⟨S, by simp, rfl⟩
      · rcases ih h with h | ⟨U, hU, rfl⟩
        · exact .inl (by simp [h])
        · exact .inr ⟨U, by simp [hU], rfl⟩
    · simp only [unpack, hS] at h
      exact .inl h

/-- READ's loop changes no segment's name. -/
theorem name_unpack (y : List Byte) (segs : List Segment) :
    (unpack y segs).map Segment.name = segs.map Segment.name := by
  simpa [Function.comp_def] using congrArg (List.map Prod.fst) (shape_unpack y segs)

/-- A segment takes a new vector of its own width. -/
theorem Segment.Legal.withBits {p : Params} {S : Segment} (h : S.Legal p) {v : Bits}
    (hv : v.length = S.msb - S.lsb + 1) : ({ S with bits := v } : Segment).Legal p := by
  obtain ⟨hle, -, hmax, hname⟩ := h
  exact ⟨hle, hv, hmax, hname⟩

/-- Storing a vector of the named segment's width (SETBITS, SEGUPD) keeps the register context legal. -/
theorem RegCtx.Legal.storeBits {p : Params} {c : RegCtx} (h : c.Legal p) {seg : Name} {S : Segment}
    (hS : c.findSeg seg = some S) {v : Bits} (hv : v.length = S.msb - S.lsb + 1) :
    ({ c with segs := modifyFirst (fun S => S.name == seg) (fun S => { S with bits := v }) c.segs } : RegCtx).Legal p := by
  obtain ⟨hnodup, hcap, hsegs, hname, haddr⟩ := h
  refine ⟨?_, by simpa using hcap, forall_modifyFirst hsegs ?_, hname, haddr⟩
  · exact nodup_map_modifyFirst (fun _ => rfl) hnodup
  · intro T hT
    obtain rfl : S = T := Option.some.inj (hS.symm.trans hT)
    exact (hsegs S (List.mem_of_find?_eq_some hT)).withBits hv

/-- READ's loop keeps the register context legal. -/
theorem RegCtx.Legal.unpack {p : Params} {c : RegCtx} (h : c.Legal p) (y : List Byte) :
    ({ c with segs := Machine.unpack y c.segs } : RegCtx).Legal p := by
  obtain ⟨hnodup, hcap, hsegs, hname, haddr⟩ := h
  refine ⟨by rwa [name_unpack], by simpa using hcap, fun T hT => ?_, hname, haddr⟩
  rcases mem_unpack hT with hT | ⟨S, hS, rfl⟩
  · exact hsegs T hT
  · exact (hsegs S hS).withBits (length_extract _ _ _)

/-- Appending a legal segment of a new name, below `MAX_SEGS`, keeps the register context legal (R81). -/
theorem RegCtx.Legal.addSeg {p : Params} {c : RegCtx} (h : c.Legal p) {S : Segment} (hS : S.Legal p)
    (hnew : c.findSeg S.name = none) (hroom : atCapacity p.maxSegs c.segs.length = false) :
    ({ c with segs := c.segs ++ [S] } : RegCtx).Legal p := by
  obtain ⟨hnodup, hcap, hsegs, hname, haddr⟩ := h
  rw [RegCtx.findSeg_none_iff] at hnew
  refine ⟨?_, ?_, ?_, hname, haddr⟩
  · exact nodup_map_append_singleton hnodup hnew
  · simpa using exceeds_succ_of_not_atCapacity hcap hroom
  · exact List.forall_mem_append.2 ⟨hsegs, List.forall_mem_singleton.2 hS⟩

/-- Appending a legal register context of a new name, below `MAX_REGS`, keeps the bank legal (R80). -/
theorem BankLegal.addReg {s : State} (h : BankLegal s.params s.bank) {c : RegCtx} (hc : c.Legal s.params)
    (hnew : s.findReg c.name = none) (hroom : atCapacity s.params.maxRegs s.bank.length = false) :
    BankLegal s.params (s.bank ++ [c]) := by
  obtain ⟨hnodup, hcap, hregs⟩ := h
  rw [State.findReg_none_iff] at hnew
  refine ⟨?_, ?_, ?_⟩
  · exact nodup_map_append_singleton hnodup hnew
  · simpa using exceeds_succ_of_not_atCapacity hcap hroom
  · exact List.forall_mem_append.2 ⟨hregs, List.forall_mem_singleton.2 hc⟩

/-- Changing the segment table of the register the lookup finds keeps the bank legal, if it keeps that register
legal. -/
theorem BankLegal.updateSegs {s : State} (h : BankLegal s.params s.bank) {reg : Name}
    {f : List Segment → List Segment} {c : RegCtx} (hc : s.findReg reg = some c)
    (hf : c.Legal s.params → ({ c with segs := f c.segs } : RegCtx).Legal s.params) :
    BankLegal s.params (s.updateSegs reg f).bank := by
  obtain ⟨hnodup, hcap, hregs⟩ := h
  rw [State.updateSegs_bank]
  refine ⟨?_, by simpa using hcap, forall_modifyFirst hregs ?_⟩
  · exact nodup_map_modifyFirst (fun _ => rfl) hnodup
  · intro d hd
    obtain rfl : c = d := Option.some.inj (hc.symm.trans hd)
    exact hf (hregs c (List.mem_of_find?_eq_some hd))

/-! ### What a command can do, over all commands -/

/-- The one write of the tables that a command's rule gives it, with the tests it has passed; or none. -/
inductive TableWrite (s : State) : Instr → State → Prop where
  | none {i : Instr} : TableWrite s i s
  | regadd {reg : Name} {raddr : Nat} {mode : AccessMode} (hnew : s.findReg reg = .none)
      (hroom : atCapacity s.params.maxRegs s.bank.length = false) :
      TableWrite s (.regadd reg raddr mode) (s.addReg { name := reg, raddr := raddr, mode := mode, segs := [] })
  | segadd {reg seg : Name} {lsb msb : Nat} {c : RegCtx} (hc : s.findReg reg = some c) (hle : lsb ≤ msb)
      (hnew : c.findSeg seg = .none) (hmax : beyondBits s.params.maxBits msb = false)
      (hroom : atCapacity s.params.maxSegs c.segs.length = false) :
      TableWrite s (.segadd reg seg lsb msb)
        (s.addSeg reg { name := seg, lsb := lsb, msb := msb, bits := List.replicate (msb - lsb + 1) false })
  | setbits {reg seg : Name} {vec : List Nat} {c : RegCtx} {S : Segment} (hc : s.findReg reg = some c)
      (hS : c.findSeg seg = some S) (hlen : vec.length = S.width) :
      TableWrite s (.setbits reg seg vec) (s.storeBits reg seg (bitsOf vec))
  | segupd {reg seg : Name} {y : List Byte} {c : RegCtx} {S : Segment} (hc : s.findReg reg = some c)
      (hS : c.findSeg seg = some S) :
      TableWrite s (.segupd reg seg y) (s.storeBits reg seg (extract S.lsb S.msb y))

/-- The transfer that a READ or WRITE starts once its checks have passed (R100, R101). -/
inductive StartsTransfer (s : State) : Instr → Transfer → Prop where
  | read {reg : Name} {c : RegCtx} (hc : s.findReg reg = some c) (hmode : c.mode.readable = true) :
      StartsTransfer s (.read reg) { reg := reg, request := .readBytes s.devAddr c.raddr (totalBytes c.segs) }
  | write {reg : Name} {c : RegCtx} (hc : s.findReg reg = some c) (hmode : c.mode.writable = true)
      (hlayout : layoutError c.segs = none) :
      StartsTransfer s (.write reg) { reg := reg, request := .writeBytes s.devAddr c.raddr (pack c.segs) }

/-- What a command can do: respond after its one write of the tables, or (READ and WRITE) offer its one transport
request. -/
theorem exec_cases {i : Instr} {s t : State} (h : exec i s = .next t) :
    (∃ u e, TableWrite s i u ∧ RespondsOver s u t e) ∨
      ∃ x, StartsTransfer s i x ∧ s.offerRequest x = .next t := by
  have noWrite {e : Status} (hr : RespondsOver s s t e) : ∃ u e, TableWrite s i u ∧ RespondsOver s u t e :=
    ⟨s, e, .none, hr⟩
  cases i with
  | tobits value width =>
    obtain ⟨_, hr, _⟩ := execTobits_cases h
    exact .inl (noWrite hr)
  | toint vec =>
    obtain ⟨_, hr, _⟩ := execToint_cases h
    exact .inl (noWrite hr)
  | totc vec =>
    obtain ⟨_, hr, _⟩ := execTotc_cases h
    exact .inl (noWrite hr)
  | nbytes n => exact .inl (noWrite (execNbytes_cases h))
  | padbytes vec =>
    obtain ⟨_, hr, _⟩ := execPadbytes_cases h
    exact .inl (noWrite hr)
  | regadd reg raddr mode =>
    rcases execRegadd_cases h with hr | ⟨hr, _⟩ | ⟨hnew, hroom, hr⟩
    · exact .inl (noWrite hr)
    · exact .inl (noWrite hr)
    · exact .inl ⟨_, _, .regadd hnew hroom, hr⟩
  | segadd reg seg lsb msb =>
    rcases execSegadd_cases h with ⟨_, hr, _⟩ | ⟨c, hc, hle, hnew, hmax, hroom, hr⟩
    · exact .inl (noWrite hr)
    · exact .inl ⟨_, _, .segadd hc hle hnew hmax hroom, hr⟩
  | regget reg =>
    obtain ⟨_, hr, _⟩ := execRegget_cases h
    exact .inl (noWrite hr)
  | segget reg seg =>
    obtain ⟨_, hr, _⟩ := execSegget_cases h
    exact .inl (noWrite hr)
  | totbits reg =>
    obtain ⟨_, hr, _⟩ := execTotbits_cases h
    exact .inl (noWrite hr)
  | totbytes reg =>
    obtain ⟨_, hr, _⟩ := execTotbytes_cases h
    exact .inl (noWrite hr)
  | setbits reg seg vec =>
    rcases execSetbits_cases h with ⟨_, hr, _⟩ | ⟨c, S, hc, hS, hlen, hr⟩
    · exact .inl (noWrite hr)
    · exact .inl ⟨_, _, .setbits hc hS hlen, hr⟩
  | segupd reg seg y =>
    rcases execSegupd_cases h with ⟨_, hr, _⟩ | ⟨c, S, hc, hS, hr⟩
    · exact .inl (noWrite hr)
    · exact .inl ⟨_, _, .segupd hc hS, hr⟩
  | segint reg seg =>
    obtain ⟨_, hr, _⟩ := execSegint_cases h
    exact .inl (noWrite hr)
  | segtc reg seg =>
    obtain ⟨_, hr, _⟩ := execSegtc_cases h
    exact .inl (noWrite hr)
  | read reg =>
    rcases execRead_cases h with ⟨_, hr, _⟩ | ⟨c, hc, hmode, ho⟩
    · exact .inl (noWrite hr)
    · exact .inr ⟨_, .read hc hmode, ho⟩
  | write reg =>
    rcases execWrite_cases h with ⟨_, hr, _⟩ | ⟨c, hc, hmode, hlayout, ho⟩
    · exact .inl (noWrite hr)
    · exact .inr ⟨_, .write hc hmode hlayout, ho⟩

/-- A write of the tables changes the bank and no other field of the state. -/
theorem TableWrite.frame {s u : State} {i : Instr} (h : TableWrite s i u) : u = { s with bank := u.bank } := by
  cases h <;> rfl

/-- A write of the tables by a command whose operands fit the channel keeps the bank legal. -/
theorem TableWrite.bankLegal {s u : State} {i : Instr} (h : TableWrite s i u) (hi : i.wf s.params = true)
    (hs : BankLegal s.params s.bank) : BankLegal s.params u.bank := by
  cases h with
  | none => exact hs
  | regadd hnew hroom =>
    simp only [Instr.wf, Bool.and_eq_true] at hi
    obtain ⟨hreg, hraddr⟩ := hi
    have hempty : exceeds s.params.maxSegs 0 = false := by cases s.params.maxSegs <;> simp [exceeds]
    exact hs.addReg ⟨.nil, hempty, by simp, hreg, hraddr⟩ hnew hroom
  | segadd hc hle hnew hmax hroom =>
    simp only [Instr.wf, Bool.and_eq_true] at hi
    obtain ⟨-, hseg⟩ := hi
    exact hs.updateSegs hc fun hcl => hcl.addSeg ⟨hle, by simp, hmax, hseg⟩ hnew hroom
  | setbits hc hS hlen =>
    exact hs.updateSegs hc fun hcl => hcl.storeBits hS (by rw [length_bitsOf, hlen, Segment.width])
  | segupd hc hS => exact hs.updateSegs hc fun hcl => hcl.storeBits hS (length_extract _ _ _)

/-! ### The parameters and the strap -/

/-- `t` is a state of the same block as `s`: the same parameters (R4) and the same strap (R18). -/
abbrev SameBlock (s t : State) : Prop :=
  t.params = s.params ∧ t.devAddr = s.devAddr

theorem finishTransfer_sameBlock {s t : State} {x : Transfer} {a : TransportAnswer}
    (h : s.finishTransfer x a = .next t) : SameBlock s t := by
  rcases State.finishTransfer_cases h with ⟨_, rfl⟩ | ⟨_, _, rfl⟩ | ⟨_, _, c, _, ⟨_, rfl⟩ | ⟨S, _, rfl⟩⟩ <;>
    exact ⟨rfl, rfl⟩

theorem awaitAnswer_sameBlock {s t : State} {x : Transfer} (h : s.awaitAnswer x = .next t) : SameBlock s t := by
  rcases State.awaitAnswer_cases h with ⟨_, rfl⟩ | ⟨a, rest, _, h⟩
  · exact ⟨rfl, rfl⟩
  · exact finishTransfer_sameBlock (s := { s with answers := rest, stale := 0 }) h

theorem offerRequest_sameBlock {s t : State} {x : Transfer} (h : s.offerRequest x = .next t) : SameBlock s t := by
  rcases State.offerRequest_cases h with ⟨_, rfl⟩ | ⟨_, h⟩
  · exact ⟨rfl, rfl⟩
  · exact awaitAnswer_sameBlock (s := { s with calls := s.calls ++ [x.request] }) h

theorem exec_sameBlock {i : Instr} {s t : State} (h : exec i s = .next t) : SameBlock s t := by
  rcases exec_cases h with ⟨u, e, hw, f, d, _, rfl⟩ | ⟨x, _, h⟩
  · rw [hw.frame]
    exact ⟨rfl, rfl⟩
  · exact offerRequest_sameBlock h

theorem runRecord_sameBlock {r : CommandRecord} {s t : State} (h : runRecord r s = .next t) : SameBlock s t := by
  rcases runRecord_cases h with ⟨_, rfl⟩ | ⟨i, _, _, h⟩
  · exact ⟨rfl, rfl⟩
  · exact exec_sameBlock h

theorem offerResponse_sameBlock (s : State) (r : Response) : SameBlock s (s.offerResponse r) := by
  unfold State.offerResponse
  split <;> exact ⟨rfl, rfl⟩

/-- Settles O55: each thing a step can do, reset included, keeps both. -/
theorem parametersAndStrapAreConstant : Obligations.ParametersAndStrapAreConstant := by
  intro s t h
  rcases step_cases h with ⟨_, rfl⟩ | ⟨_, _, _, rfl⟩ | ⟨_, _, r, rest, _, h⟩ | ⟨_, x, _, h⟩ | ⟨_, x, _, h⟩ |
    ⟨_, r, _, rfl⟩
  · exact ⟨rfl, rfl⟩
  · exact ⟨rfl, rfl⟩
  · exact runRecord_sameBlock (s := { s with commands := rest }) h
  · exact offerRequest_sameBlock h
  · exact awaitAnswer_sameBlock h
  · exact offerResponse_sameBlock s r

/-! ### Legal states -/

/-- The part of `State.Legal` that does not depend on the phase: the parameters, the bank and the strap. -/
def State.TablesLegal (s : State) : Prop :=
  s.params.wf = true ∧ BankLegal s.params s.bank ∧ fits s.params.devW s.devAddr = true

theorem State.Legal.tables {s : State} (h : s.Legal) : s.TablesLegal := by
  obtain ⟨hp, hb, hd, -⟩ := h
  exact ⟨hp, hb, hd⟩

theorem State.legal_of_idle {s : State} (hs : s.TablesLegal) (hp : s.phase = .idle) : s.Legal := by
  obtain ⟨hparams, hb, hd⟩ := hs
  exact ⟨hparams, hb, hd, by simp [hp]⟩

theorem State.TablesLegal.respond {s : State} (hs : s.TablesLegal) {r : Response} (hr : r.Legal s.params) :
    (s.respond r).Legal := by
  obtain ⟨hparams, hb, hd⟩ := hs
  exact ⟨hparams, hb, hd, hr⟩

theorem State.TablesLegal.requesting {s : State} (hs : s.TablesLegal) {x : Transfer} (hx : x.Legal s) :
    ({ s with phase := .requesting x } : State).Legal := by
  obtain ⟨hparams, hb, hd⟩ := hs
  exact ⟨hparams, hb, hd, hx⟩

theorem State.TablesLegal.waiting {s : State} (hs : s.TablesLegal) {x : Transfer} (hx : x.Legal s) :
    ({ s with phase := .waiting x } : State).Legal := by
  obtain ⟨hparams, hb, hd⟩ := hs
  exact ⟨hparams, hb, hd, hx⟩

/-- A response without a transport status in its detail is legal for any parameters. -/
theorem Response.legal_of_detail {p : Params} {r : Response} (h : ∀ n, r.detail ≠ .tstatus n) : r.Legal p :=
  fun n hn => absurd hn (h n)

/-- The transfer that a command starts carries the strap and its register's address. -/
theorem StartsTransfer.legal {s : State} {i : Instr} {x : Transfer} (h : StartsTransfer s i x) : x.Legal s := by
  cases h with
  | read hc hmode => exact ⟨_, hc, rfl, rfl, rfl, hmode⟩
  | write hc hmode _ => exact ⟨_, hc, rfl, rfl, rfl, hmode⟩

/-- The end of a transfer leads to a legal state: its status word has `TSTAT_W` bits, and what it unpacks has the
segments' widths. -/
theorem finishTransfer_legal {s t : State} {x : Transfer} {a : TransportAnswer} (hs : s.TablesLegal)
    (h : s.finishTransfer x a = .next t) : t.Legal := by
  have unpacked {c : RegCtx} (hc : s.findReg x.reg = some c) :
      (s.updateSegs x.reg (unpack a.rbytes)).TablesLegal := by
    obtain ⟨hparams, hb, hd⟩ := hs
    exact ⟨hparams, hb.updateSegs hc fun hcl => hcl.unpack a.rbytes, hd⟩
  rcases State.finishTransfer_cases h with ⟨_, rfl⟩ | ⟨_, _, rfl⟩ | ⟨_, _, c, hc, ⟨_, rfl⟩ | ⟨S, _, rfl⟩⟩
  · refine hs.respond fun n hn => ?_
    obtain rfl : a.status s.params = n := Detail.tstatus.inj hn
    exact a.fits_status s.params
  · exact hs.respond (Response.legal_of_detail (by simp))
  · exact (unpacked hc).respond (Response.legal_of_detail (by simp))
  · exact (unpacked hc).respond (Response.legal_of_detail (by simp))

theorem awaitAnswer_legal {s t : State} {x : Transfer} (hs : s.TablesLegal) (hx : x.Legal s)
    (h : s.awaitAnswer x = .next t) : t.Legal := by
  rcases State.awaitAnswer_cases h with ⟨_, rfl⟩ | ⟨a, rest, _, h⟩
  · exact hs.waiting hx
  · exact finishTransfer_legal (s := { s with answers := rest, stale := 0 }) hs h

theorem offerRequest_legal {s t : State} {x : Transfer} (hs : s.TablesLegal) (hx : x.Legal s)
    (h : s.offerRequest x = .next t) : t.Legal := by
  rcases State.offerRequest_cases h with ⟨_, rfl⟩ | ⟨_, h⟩
  · exact hs.requesting hx
  · exact awaitAnswer_legal (s := { s with calls := s.calls ++ [x.request] }) hs hx h

/-- A command whose operands fit the channel leads to a legal state. -/
theorem exec_legal {i : Instr} {s t : State} (hs : s.TablesLegal) (hi : i.wf s.params = true)
    (h : exec i s = .next t) : t.Legal := by
  rcases exec_cases h with ⟨u, e, hw, f, d, hd, rfl⟩ | ⟨x, hx, h⟩
  · have hu : u.TablesLegal := by
      obtain ⟨hparams, hb, hdev⟩ := hs
      rw [hw.frame]
      exact ⟨hparams, hw.bankLegal hi hb, hdev⟩
    exact hu.respond (Response.legal_of_detail hd)
  · exact offerRequest_legal hs hx.legal h

theorem runRecord_legal {r : CommandRecord} {s t : State} (hs : s.TablesLegal) (h : runRecord r s = .next t) :
    t.Legal := by
  rcases runRecord_cases h with ⟨_, rfl⟩ | ⟨i, _, hi, h⟩
  · exact hs.respond (Response.legal_of_detail (by simp))
  · exact exec_legal hs hi h

/-- Handing over a response, or going on offering it, leads to a legal state. -/
theorem offerResponse_legal {s : State} (hs : s.Legal) (r : Response) : (s.offerResponse r).Legal := by
  unfold State.offerResponse
  split
  · exact State.legal_of_idle hs.tables rfl
  · exact hs

/-- An empty bank is legal for any parameters. -/
theorem bankLegal_nil (p : Params) : BankLegal p [] := by
  refine ⟨.nil, ?_, by simp⟩
  cases hm : p.maxRegs <;> simp [exceeds]

theorem applyReset_legal {s : State} (hs : s.TablesLegal) : s.applyReset.Legal := by
  obtain ⟨hparams, -, hd⟩ := hs
  exact State.legal_of_idle ⟨hparams, bankLegal_nil _, hd⟩ rfl

/-- Settles O50: an accepted record leads from legal tables to a legal state, whatever it is; the phases of a transfer
keep it legal because they write nothing before its end. -/
theorem stepKeepsLegalStates : Obligations.StepKeepsLegalStates := by
  intro s t hs h
  have hx {x : Transfer} (hp : s.phase = .requesting x ∨ s.phase = .waiting x) : x.Legal s := by
    obtain ⟨-, -, -, hphase⟩ := hs
    rcases hp with hp | hp <;> simpa [hp] using hphase
  rcases step_cases h with ⟨_, rfl⟩ | ⟨_, _, _, rfl⟩ | ⟨_, _, r, rest, _, h⟩ | ⟨_, x, hp, h⟩ | ⟨_, x, hp, h⟩ |
    ⟨_, r, _, rfl⟩
  · exact applyReset_legal hs.tables
  · exact hs
  · exact runRecord_legal (s := { s with commands := rest }) hs.tables h
  · exact offerRequest_legal hs.tables (hx (.inl hp)) h
  · exact awaitAnswer_legal hs.tables (hx (.inr hp)) h
  · exact offerResponse_legal hs r

/-- Settles O51: the bank is empty and no command is in flight. -/
theorem resetStateIsLegal : Obligations.ResetStateIsLegal := by
  intro p dev hp hdev
  exact State.legal_of_idle ⟨hp, bankLegal_nil p, hdev⟩ rfl

end Sys2Proof.Machine
end

section
/-! ## What happens to the bank: nothing is removed, and only what a command names is written (spec/10_state.md R15,
R19 to R21, R26, R27) -/

namespace Sys2Proof.Machine

/-! ### Slot by slot: what an update of a table keeps -/

/-- What stands in a slot of a list stands there in every longer one. -/
theorem getElem?_of_prefix {α : Type} {l m : List α} (h : l <+: m) {k : Nat} {a : α} (ha : l[k]? = some a) :
    m[k]? = some a := by
  obtain ⟨rest, rfl⟩ := h
  obtain ⟨hk, -⟩ := List.getElem?_eq_some_iff.1 ha
  rw [List.getElem?_append_left hk, ha]

/-- The update by name leaves an entry of another name as it is. -/
theorem modifyFirst_getElem?_of_not {α : Type} {p : α → Bool} {f : α → α} {l : List α} {k : Nat} {a : α}
    (ha : l[k]? = some a) (hp : p a = false) : (modifyFirst p f l)[k]? = some a := by
  rcases modifyFirst_getElem? p f l k with h | ⟨b, hb, hpb, _⟩
  · rw [h, ha]
  · obtain rfl : a = b := Option.some.inj (ha.symm.trans hb)
    simp [hp] at hpb

/-- Changing the segment table of a register keeps every slot: what stands there is the old context, or the one of that
name with its new table. -/
theorem State.updateSegs_getElem? {s : State} {k : Nat} {c : RegCtx} (hc : s.bank[k]? = some c) (reg : Name)
    (f : List Segment → List Segment) :
    ∃ c', (s.updateSegs reg f).bank[k]? = some c' ∧ (c' = c ∨ c.name = reg ∧ c' = { c with segs := f c.segs }) := by
  rw [State.updateSegs_bank]
  rcases modifyFirst_getElem? (fun d : RegCtx => d.name == reg) (fun d => { d with segs := f d.segs }) s.bank k with
    h | ⟨d, hd, hname, h⟩
  · exact ⟨c, h.trans hc, .inl rfl⟩
  · obtain rfl : c = d := Option.some.inj (hc.symm.trans hd)
    exact ⟨_, h, .inr ⟨by simpa using hname, rfl⟩⟩

/-- Changing the segment table of a register leaves every register of another name as it is. -/
theorem State.updateSegs_getElem?_of_name_ne {s : State} {k : Nat} {c : RegCtx} (hc : s.bank[k]? = some c)
    {reg : Name} (hname : c.name ≠ reg) (f : List Segment → List Segment) :
    (s.updateSegs reg f).bank[k]? = some c :=
  modifyFirst_getElem?_of_not hc (by simpa using hname)

/-- Appending a register context leaves every slot in use as it is (R19). -/
theorem State.addReg_getElem? {s : State} {k : Nat} {c : RegCtx} (hc : s.bank[k]? = some c) (d : RegCtx) :
    (s.addReg d).bank[k]? = some c :=
  getElem?_of_prefix (List.prefix_append _ _) hc

/-- Storing a segment's bits changes no segment of another name, in any register, and the length of no segment table. -/
theorem State.storeBits_getElem? {s : State} {k : Nat} {c : RegCtx} (hc : s.bank[k]? = some c) (reg seg : Name)
    (v : Bits) :
    ∃ c', (s.storeBits reg seg v).bank[k]? = some c' ∧ c'.segs.length = c.segs.length ∧
      ∀ (j : Nat) (S : Segment), c.segs[j]? = some S → S.name ≠ seg → c'.segs[j]? = some S := by
  obtain ⟨c', hc', rfl | ⟨_, rfl⟩⟩ := State.updateSegs_getElem? hc reg
    (modifyFirst (fun S => S.name == seg) fun S => { S with bits := v })
  · exact ⟨c', hc', rfl, fun j S hS _ => hS⟩
  · exact ⟨_, hc', length_modifyFirst _ _ _, fun j S hS hname =>
      modifyFirst_getElem?_of_not hS (by simpa using hname)⟩

/-! ### What a transfer and a command can do to the bank -/

/-- The bank after a transfer's step: as it was, or (for a READ) with the bytes of an answer unpacked into the one
register the transfer is for. -/
def TransferWrite (s t : State) (x : Transfer) : Prop :=
  t.bank = s.bank ∨ x.request.kind = 0 ∧ ∃ y, t.bank = (s.updateSegs x.reg (unpack y)).bank

theorem finishTransfer_transferWrite {s t : State} {x : Transfer} {a : TransportAnswer}
    (h : s.finishTransfer x a = .next t) : TransferWrite s t x := by
  rcases State.finishTransfer_cases h with ⟨_, rfl⟩ | ⟨_, _, rfl⟩ | ⟨_, ⟨_, _, _, hread⟩, _, _, hu⟩
  · exact .inl rfl
  · exact .inl rfl
  · refine .inr ⟨by rw [hread]; rfl, a.rbytes, ?_⟩
    rcases hu with ⟨_, rfl⟩ | ⟨S, _, rfl⟩ <;> rfl

theorem awaitAnswer_transferWrite {s t : State} {x : Transfer} (h : s.awaitAnswer x = .next t) :
    TransferWrite s t x := by
  rcases State.awaitAnswer_cases h with ⟨_, rfl⟩ | ⟨a, rest, _, h⟩
  · exact .inl rfl
  · exact finishTransfer_transferWrite (s := { s with answers := rest, stale := 0 }) h

theorem offerRequest_transferWrite {s t : State} {x : Transfer} (h : s.offerRequest x = .next t) :
    TransferWrite s t x := by
  rcases State.offerRequest_cases h with ⟨_, rfl⟩ | ⟨_, h⟩
  · exact .inl rfl
  · exact awaitAnswer_transferWrite (s := { s with calls := s.calls ++ [x.request] }) h

/-- What a command can do to the bank: its one write of the tables, or none, or (a READ whose answer is there) the
unpacking of bytes into the register it names. -/
theorem exec_bank_cases {i : Instr} {s t : State} (h : exec i s = .next t) :
    (∃ u, TableWrite s i u ∧ t.bank = u.bank) ∨
      ∃ reg y, i = .read reg ∧ t.bank = (s.updateSegs reg (unpack y)).bank := by
  rcases exec_cases h with ⟨u, e, hw, f, d, _, rfl⟩ | ⟨x, hx, h⟩
  · exact .inl ⟨u, hw, rfl⟩
  rcases offerRequest_transferWrite h with hb | ⟨hkind, y, hb⟩
  · exact .inl ⟨s, .none, hb⟩
  cases hx with
  | read _ _ => exact .inr ⟨_, y, rfl, hb⟩
  | write _ _ _ => simp [TransportRequest.kind] at hkind

/-! ### Which commands change the bank, and where -/

/-- Settles O53: READ is the only command whose transfer writes, and only four commands have a write of the tables. -/
theorem onlyFiveCommandsChangeTheBank : Obligations.OnlyFiveCommandsChangeTheBank := by
  intro i s t h hne
  rcases exec_bank_cases h with ⟨u, hw, hb⟩ | ⟨reg, y, rfl, _⟩
  · cases hw with
    | none => exact absurd hb hne
    | regadd _ _ => simp [Instr.opcode]
    | segadd _ _ _ _ _ => simp [Instr.opcode]
    | setbits _ _ _ => simp [Instr.opcode]
    | segupd _ _ => simp [Instr.opcode]
  · simp [Instr.opcode]

/-- A write of the tables leaves every register the command does not name as it is (R20). -/
theorem TableWrite.getElem?_of_not_named {s u : State} {i : Instr} (h : TableWrite s i u) {k : Nat} {c : RegCtx}
    (hc : s.bank[k]? = some c) (hname : namedReg i ≠ some c.name) : u.bank[k]? = some c := by
  have hne {reg : Name} (hi : namedReg i = some reg) : c.name ≠ reg := fun hr => hname (hr ▸ hi)
  cases h with
  | none => exact hc
  | regadd _ _ => exact State.addReg_getElem? hc _
  | segadd _ _ _ _ _ => exact State.updateSegs_getElem?_of_name_ne hc (hne rfl) _
  | setbits _ _ _ => exact State.updateSegs_getElem?_of_name_ne hc (hne rfl) _
  | segupd _ _ => exact State.updateSegs_getElem?_of_name_ne hc (hne rfl) _

/-- A command leaves every register it does not name as it is (R20). -/
theorem exec_getElem?_of_not_named {i : Instr} {s t : State} (h : exec i s = .next t) {k : Nat} {c : RegCtx}
    (hc : s.bank[k]? = some c) (hname : namedReg i ≠ some c.name) : t.bank[k]? = some c := by
  rcases exec_bank_cases h with ⟨u, hw, hb⟩ | ⟨reg, y, rfl, hb⟩
  · rw [hb]
    exact hw.getElem?_of_not_named hc hname
  · rw [hb]
    exact State.updateSegs_getElem?_of_name_ne hc (fun hr => hname (congrArg some hr.symm)) _

/-- SETBITS and SEGUPD leave the bank as it is, or store a vector in the segment they name (R90, R91). -/
theorem exec_store_bank {i : Instr} {s t : State} {reg seg : Name} (h : exec i s = .next t)
    (hi : (∃ vec, i = .setbits reg seg vec) ∨ ∃ y, i = .segupd reg seg y) :
    t.bank = s.bank ∨ ∃ v, t.bank = (s.storeBits reg seg v).bank := by
  rcases hi with ⟨vec, rfl⟩ | ⟨y, rfl⟩ <;>
  · rcases exec_bank_cases h with ⟨u, hw, hb⟩ | ⟨_, _, hi, _⟩
    · cases hw
      · exact .inl hb
      · exact .inr ⟨_, hb⟩
    · cases hi

/-- Settles O54: a write of the tables, or of a READ's bytes, is to the register of the name given; a stored vector is
to the segment of the name given. -/
theorem otherRegistersAreUntouched : Obligations.OtherRegistersAreUntouched := by
  intro i s t h
  refine ⟨fun k c hc hname => exec_getElem?_of_not_named h hc hname, fun reg seg hi k c hc => ?_⟩
  rcases exec_store_bank h hi with hb | ⟨v, hb⟩
  · exact ⟨c, hb ▸ hc, rfl, fun j S hS _ => hS⟩
  · rw [hb]
    exact State.storeBits_getElem? hc reg seg v

/-! ### Nothing is removed, moved or redescribed (R15, R19, R26) -/

/-- `c'` is `c` at a later time: the same name, address and mode, and every segment's descriptor in the slot it had. -/
def RegCtx.Extends (c c' : RegCtx) : Prop :=
  c'.name = c.name ∧ c'.raddr = c.raddr ∧ c'.mode = c.mode ∧
    c.segs.map Segment.shape <+: c'.segs.map Segment.shape

/-- `b'` is the bank `b` at a later time: every register stands in the slot it had. -/
def BankExtends (b b' : List RegCtx) : Prop :=
  ∀ (k : Nat) (c : RegCtx), b[k]? = some c → ∃ c', b'[k]? = some c' ∧ c.Extends c'

theorem RegCtx.Extends.refl (c : RegCtx) : c.Extends c :=
  ⟨rfl, rfl, rfl, List.prefix_rfl⟩

theorem BankExtends.refl (b : List RegCtx) : BankExtends b b :=
  fun _ c hc => ⟨c, hc, .refl c⟩

/-- Each segment of the earlier context is in its slot in the later one, with its descriptor. -/
theorem RegCtx.Extends.getElem? {c c' : RegCtx} (h : c.Extends c') {j : Nat} {S : Segment}
    (hS : c.segs[j]? = some S) :
    ∃ S', c'.segs[j]? = some S' ∧ S'.name = S.name ∧ S'.lsb = S.lsb ∧ S'.msb = S.msb := by
  obtain ⟨-, -, -, hprefix⟩ := h
  have hshape : (c'.segs.map Segment.shape)[j]? = some S.shape := getElem?_of_prefix hprefix (by simp [hS])
  simpa using hshape

/-- A new segment table that begins with the old descriptors removes, moves and redescribes nothing. -/
theorem updateSegs_bankExtends (s : State) (reg : Name) {f : List Segment → List Segment}
    (hf : ∀ segs, segs.map Segment.shape <+: (f segs).map Segment.shape) :
    BankExtends s.bank (s.updateSegs reg f).bank := by
  intro k c hc
  obtain ⟨c', hc', rfl | ⟨_, rfl⟩⟩ := State.updateSegs_getElem? hc reg f
  · exact ⟨c', hc', .refl c'⟩
  · exact ⟨_, hc', rfl, rfl, rfl, hf c.segs⟩

theorem storeBits_bankExtends (s : State) (reg seg : Name) (v : Bits) :
    BankExtends s.bank (s.storeBits reg seg v).bank :=
  updateSegs_bankExtends s reg fun segs => by
    rw [map_modifyFirst _ _ Segment.shape]
    exact fun _ => rfl

theorem addSeg_bankExtends (s : State) (reg : Name) (S : Segment) : BankExtends s.bank (s.addSeg reg S).bank :=
  updateSegs_bankExtends s reg fun segs => by simp

theorem unpack_bankExtends (s : State) (reg : Name) (y : List Byte) :
    BankExtends s.bank (s.updateSegs reg (unpack y)).bank :=
  updateSegs_bankExtends s reg fun segs => by rw [shape_unpack]

theorem TableWrite.bankExtends {s u : State} {i : Instr} (h : TableWrite s i u) : BankExtends s.bank u.bank := by
  cases h with
  | none => exact .refl _
  | regadd _ _ => exact fun k c hc => ⟨c, State.addReg_getElem? hc _, .refl c⟩
  | segadd _ _ _ _ _ => exact addSeg_bankExtends _ _ _
  | setbits _ _ _ => exact storeBits_bankExtends _ _ _ _
  | segupd _ _ => exact storeBits_bankExtends _ _ _ _

theorem TransferWrite.bankExtends {s t : State} {x : Transfer} (h : TransferWrite s t x) :
    BankExtends s.bank t.bank := by
  rcases h with hb | ⟨_, y, hb⟩
  · exact hb ▸ .refl _
  · exact hb ▸ unpack_bankExtends s x.reg y

theorem exec_bankExtends {i : Instr} {s t : State} (h : exec i s = .next t) : BankExtends s.bank t.bank := by
  rcases exec_bank_cases h with ⟨u, hw, hb⟩ | ⟨reg, y, _, hb⟩
  · exact hb ▸ hw.bankExtends
  · exact hb ▸ unpack_bankExtends s reg y

theorem runRecord_bankExtends {r : CommandRecord} {s t : State} (h : runRecord r s = .next t) :
    BankExtends s.bank t.bank := by
  rcases runRecord_cases h with ⟨_, rfl⟩ | ⟨i, _, _, h⟩
  · exact .refl _
  · exact exec_bankExtends h

@[simp] theorem State.offerResponse_bank (s : State) (r : Response) : (s.offerResponse r).bank = s.bank := by
  unfold State.offerResponse
  split <;> rfl

/-- A step out of reset leads to the bank at a later time. -/
theorem step_bankExtends {s t : State} (hrst : s.rst = false) (h : step s = .next t) : BankExtends s.bank t.bank := by
  rcases step_cases h with ⟨hr, _⟩ | ⟨_, _, _, rfl⟩ | ⟨_, _, r, rest, _, h⟩ | ⟨_, x, _, h⟩ | ⟨_, x, _, h⟩ |
    ⟨_, r, _, rfl⟩
  · simp [hrst] at hr
  · exact .refl _
  · exact runRecord_bankExtends (s := { s with commands := rest }) h
  · exact (offerRequest_transferWrite h).bankExtends
  · exact (awaitAnswer_transferWrite h).bankExtends
  · rw [State.offerResponse_bank]
    exact .refl _

/-- Settles O52: every write appends to a table or replaces stored bits, so each slot keeps its descriptor. -/
theorem nothingIsEverRemoved : Obligations.NothingIsEverRemoved := by
  intro s t hrst h k c hc
  obtain ⟨c', hc', hext⟩ := step_bankExtends hrst h k c hc
  have ⟨hname, hraddr, hmode, _⟩ := hext
  exact ⟨c', hc', hname, hraddr, hmode, fun j S hS => hext.getElem? hS⟩

/-! ### The state right after reset (R27, R161) -/

/-- Settles O49: the fields are as the reset state is defined, and a lookup in its empty bank finds no register. -/
theorem resetStateIsTheEmptyBank : Obligations.ResetStateIsTheEmptyBank := by
  intro p dev
  refine ⟨rfl, rfl, rfl, rfl, rfl, fun reg => ?_⟩
  simp [State.findReg_none_iff, State.resetWith]

end Sys2Proof.Machine
end

section
/-! ## The transport boundary: the request's handshake, the one call and the wait for its answer (spec/20_memory.md R38
to R46; spec/43_transfer.md R100, R101) -/

namespace Sys2Proof.Machine

/-! ### What a transfer does in each phase -/

theorem step_of_requesting {s : State} {x : Transfer} (hrst : s.rst = false) (hp : s.phase = .requesting x) :
    step s = s.offerRequest x := by
  simp [step, hrst, hp]

theorem step_of_waiting {s : State} {x : Transfer} (hrst : s.rst = false) (hp : s.phase = .waiting x) :
    step s = s.awaitAnswer x := by
  simp [step, hrst, hp]

theorem State.offerRequest_of_not_ready {s : State} (h : s.treqReady = false) (x : Transfer) :
    s.offerRequest x = .next { s with phase := .requesting x } := by
  simp [State.offerRequest, h]

theorem State.offerRequest_of_ready {s : State} (h : s.treqReady = true) (x : Transfer) :
    s.offerRequest x = ({ s with calls := s.calls ++ [x.request] } : State).awaitAnswer x := by
  simp [State.offerRequest, h]

theorem State.awaitAnswer_of_silent {s : State} {x : Transfer} (h : s.answers.drop s.stale = []) :
    s.awaitAnswer x = .next { s with phase := .waiting x } := by
  simp [State.awaitAnswer, (State.takeAnswer_none_iff s).2 h]

theorem State.awaitAnswer_of_answer {s : State} {a : TransportAnswer} {rest : List TransportAnswer}
    {x : Transfer} (h : s.answers.drop s.stale = a :: rest) :
    s.awaitAnswer x = ({ s with answers := rest, stale := 0 } : State).finishTransfer x a := by
  simp [State.awaitAnswer, State.takeAnswer, h]

/-- An offered request waits for a transport that is not ready, and is a call that waits for its answer before one that
is ready and silent (R44, R46). -/
theorem offerRequest_waits (s : State) (x : Transfer) :
    (s.treqReady = false → s.offerRequest x = .next { s with phase := .requesting x }) ∧
    (s.treqReady = true → s.answers.drop s.stale = [] →
      s.offerRequest x = .next { s with phase := .waiting x, calls := s.calls ++ [x.request] }) := by
  refine ⟨fun hready => State.offerRequest_of_not_ready hready x, fun hready hsilent => ?_⟩
  rw [State.offerRequest_of_ready hready]
  exact State.awaitAnswer_of_silent hsilent

/-- Waiting for an answer ends in a phase of its own, so the phase it started from leaves no trace. -/
theorem State.awaitAnswer_set_phase (s : State) (p : Phase) (x : Transfer) :
    ({ s with phase := p } : State).awaitAnswer x = s.awaitAnswer x := by
  cases h : s.answers.drop s.stale with
  | nil => rw [State.awaitAnswer_of_silent h, State.awaitAnswer_of_silent (s := { s with phase := p }) h]
  | cons a rest =>
    rw [State.awaitAnswer_of_answer h, State.awaitAnswer_of_answer (s := { s with phase := p }) h]
    rfl

/-- Setting the phase that the state has changes nothing. -/
theorem State.set_phase_eq_self {s : State} {p : Phase} (h : s.phase = p) : { s with phase := p } = s := by
  subst h
  rfl

/-! ### What the answer does -/

theorem covers_iff (msb : Nat) (y : List Byte) : covers msb y = true ↔ msb / 8 + 1 ≤ y.length := by
  simp [covers, bytesNeeded_eq]

theorem covers_eq_false_iff (msb : Nat) (y : List Byte) : covers msb y = false ↔ y.length < msb / 8 + 1 := by
  simp [covers, bytesNeeded_eq]

theorem firstUncovered_of_covered {segs : List Segment} {y : List Byte} (h : ∀ S ∈ segs, covers S.msb y = true) :
    firstUncovered segs y = none := by
  simpa [firstUncovered] using h

theorem firstUncovered_of_uncovered {front : List Segment} {S : Segment} {back : List Segment} {y : List Byte}
    (hfront : ∀ T ∈ front, covers T.msb y = true) (hS : covers S.msb y = false) :
    firstUncovered (front ++ S :: back) y = some S :=
  List.find?_eq_some_iff_append.2 ⟨by simp [hS], front, back, rfl, by simpa using hfront⟩

/-- A status other than 0 ends either transfer in TransportError (R42). -/
theorem State.finishTransfer_of_error {s : State} {x : Transfer} {a : TransportAnswer} (h : a.status s.params ≠ 0) :
    s.finishTransfer x a = failed s .transportError (.tstatus (a.status s.params)) := by
  simp only [State.finishTransfer, if_pos h]
  rfl

/-- A WRITE has nothing left to do (R101). -/
theorem State.finishTransfer_of_write {s : State} {x : Transfer} {a : TransportAnswer} (h : a.status s.params = 0)
    (hx : ∃ dev ra y, x.request = .writeBytes dev ra y) : s.finishTransfer x a = succeeded s id := by
  obtain ⟨dev, ra, y, hx⟩ := hx
  simp only [State.finishTransfer, h, hx]
  rfl

/-- A READ whose bytes cover every window stores them all (R100). -/
theorem State.finishTransfer_of_read_covered {s : State} {x : Transfer} {a : TransportAnswer} {c : RegCtx}
    {before after : List RegCtx} (h : a.status s.params = 0) (hx : ∃ dev ra n, x.request = .readBytes dev ra n)
    (hbank : s.bank = before ++ c :: after) (hbefore : ∀ d ∈ before, d.name ≠ x.reg) (hname : c.name = x.reg)
    (hcov : ∀ S ∈ c.segs, covers S.msb a.rbytes = true) :
    s.finishTransfer x a =
      succeeded
        { s with bank := before ++
            { c with segs := c.segs.map fun S => { S with bits := extract S.lsb S.msb a.rbytes } } :: after } id := by
  obtain ⟨dev, ra, n, hx⟩ := hx
  have hc : s.findReg x.reg = some c := (State.findReg_some_iff _ _ _).2 ⟨hname, before, after, hbank, hbefore⟩
  simp only [State.finishTransfer, h, hx, hc, firstUncovered_of_covered hcov,
    State.updateSegs_eq hbank hbefore hname, unpack_of_covered hcov]
  rfl

/-- A READ whose bytes leave a window uncovered stores the windows before it, and names that segment with the bytes it
needs (R100). -/
theorem State.finishTransfer_of_read_uncovered {s : State} {x : Transfer} {a : TransportAnswer} {c : RegCtx}
    {before after : List RegCtx} {front back : List Segment} {S : Segment} (h : a.status s.params = 0)
    (hx : ∃ dev ra n, x.request = .readBytes dev ra n) (hbank : s.bank = before ++ c :: after)
    (hbefore : ∀ d ∈ before, d.name ≠ x.reg) (hname : c.name = x.reg) (hsegs : c.segs = front ++ S :: back)
    (hfront : ∀ T ∈ front, covers T.msb a.rbytes = true) (hS : covers S.msb a.rbytes = false) :
    s.finishTransfer x a =
      failed
        { s with bank := before ++
            { c with segs :=
                (front.map fun T => { T with bits := extract T.lsb T.msb a.rbytes }) ++ S :: back } :: after }
        .insufficientData (.insufficient S.name (S.msb / 8 + 1) a.rbytes.length) := by
  obtain ⟨dev, ra, n, hx⟩ := hx
  have hc : s.findReg x.reg = some c := (State.findReg_some_iff _ _ _).2 ⟨hname, before, after, hbank, hbefore⟩
  simp only [State.finishTransfer, h, hx, hc, hsegs, firstUncovered_of_uncovered hfront hS, bytesNeeded_eq,
    State.updateSegs_eq hbank hbefore hname, unpack_of_uncovered hfront hS]
  rfl

/-- Settles O38: the answer is taken, and the transfer ends in the one way its status, its kind and its windows
allow. -/
theorem answerEndsTheWait : Obligations.AnswerEndsTheWait := by
  intro s x a rest hrst hp ha
  rw [step_of_waiting hrst hp, State.awaitAnswer_of_answer ha]
  refine ⟨fun h => State.finishTransfer_of_error h, fun h hx => State.finishTransfer_of_write h hx,
    fun h hx before c after hbank hbefore hname => ⟨fun hcov => ?_, fun front S back hsegs hfront hS => ?_⟩⟩
  · exact State.finishTransfer_of_read_covered h hx hbank hbefore hname fun S hS => (covers_iff _ _).2 (hcov S hS)
  · exact State.finishTransfer_of_read_uncovered h hx hbank hbefore hname hsegs
      (fun T hT => (covers_iff _ _).2 (hfront T hT)) ((covers_eq_false_iff _ _).2 hS)

/-! ### The request's handshake and the wait -/

/-- Settles O36: an offered request stays as it is, or becomes one call; from there the step waits as the next one
would, because waiting does not look at the phase it starts from. -/
theorem requestsPassByHandshake : Obligations.RequestsPassByHandshake := by
  intro s x hrst hp
  obtain ⟨hoffers, hwaits⟩ := offerRequest_waits s x
  rw [step_of_requesting hrst hp]
  refine ⟨fun hready => ?_, fun hready => ⟨hwaits hready, fun _ => ?_⟩⟩
  · rw [hoffers hready, State.set_phase_eq_self hp]
  · rw [State.offerRequest_of_ready hready, ← State.awaitAnswer_set_phase _ (.waiting x)]
    symm
    exact step_of_waiting hrst rfl

/-- Settles O37, by induction on the number of steps: each leads from the waiting state to itself. -/
theorem silentTransportHangsTheBlock : Obligations.SilentTransportHangsTheBlock := by
  intro s x n hrst hp hsilent
  have hstep : step s = .next s := by
    rw [step_of_waiting hrst hp, State.awaitAnswer_of_silent hsilent, State.set_phase_eq_self hp]
  induction n with
  | zero => rfl
  | succ n ih => rw [core_run_of_step n hstep, ih]

/-! ### The calls that a step can add -/

/-- `t` comes after `s` with no call more, or with the one call `q`, made after all earlier ones (R38, R39). -/
def CallsAtMost (s t : State) (q : TransportRequest) : Prop :=
  t.calls = s.calls ∨ t.calls = s.calls ++ [q]

theorem finishTransfer_calls {s t : State} {x : Transfer} {a : TransportAnswer} (h : s.finishTransfer x a = .next t) :
    t.calls = s.calls := by
  rcases State.finishTransfer_cases h with ⟨_, rfl⟩ | ⟨_, _, rfl⟩ | ⟨_, _, c, _, ⟨_, rfl⟩ | ⟨S, _, rfl⟩⟩ <;> rfl

theorem awaitAnswer_calls {s t : State} {x : Transfer} (h : s.awaitAnswer x = .next t) : t.calls = s.calls := by
  rcases State.awaitAnswer_cases h with ⟨_, rfl⟩ | ⟨a, rest, _, h⟩
  · rfl
  · exact finishTransfer_calls (s := { s with answers := rest, stale := 0 }) h

/-- An offered request becomes at most one call, and that call is the request. -/
theorem offerRequest_callsAtMost {s t : State} {x : Transfer} (h : s.offerRequest x = .next t) :
    CallsAtMost s t x.request := by
  rcases State.offerRequest_cases h with ⟨_, rfl⟩ | ⟨_, h⟩
  · exact .inl rfl
  · exact .inr (awaitAnswer_calls (s := { s with calls := s.calls ++ [x.request] }) h)

/-- A command leaves the transport's channels as they are, or is a READ or WRITE and offers its request. -/
theorem exec_transport_cases {i : Instr} {s t : State} (h : exec i s = .next t) :
    (t.calls = s.calls ∧ t.answers = s.answers ∧ t.stale = s.stale) ∨
      ∃ x, StartsTransfer s i x ∧ CallsAtMost s t x.request := by
  rcases exec_cases h with ⟨u, e, hw, f, d, _, rfl⟩ | ⟨x, hx, h⟩
  · rw [hw.frame]
    exact .inl ⟨rfl, rfl, rfl⟩
  · exact .inr ⟨x, hx, offerRequest_callsAtMost h⟩

/-- Settles O34: only a READ or a WRITE starts a transfer, and the one call it can make is that transfer's request. -/
theorem onlyReadAndWriteCallTheTransport : Obligations.OnlyReadAndWriteCallTheTransport := by
  intro i s t h
  rcases exec_transport_cases h with hsame | ⟨x, hx, hcalls⟩
  · have ⟨hcalls, _⟩ := hsame
    exact ⟨fun _ => hsame, fun _ _ => .inl hcalls, fun _ _ => .inl hcalls⟩
  · cases hx with
    | read hc hmode =>
      exact ⟨by simp [usesTransport], fun _ _ => hcalls.imp_right fun h => ⟨_, _, _, h⟩, by simp⟩
    | write hc hmode hlayout =>
      exact ⟨by simp [usesTransport], by simp, fun _ _ => hcalls.imp_right fun h => ⟨_, _, _, h⟩⟩

/-- At most one call more, and that call a `read_bytes` or a `write_bytes` to the strap's address (R18, R39). -/
def CallsTheStrap (s t : State) : Prop :=
  t.calls = s.calls ∨ (∃ ra n, t.calls = s.calls ++ [.readBytes s.devAddr ra n]) ∨
    ∃ ra y, t.calls = s.calls ++ [.writeBytes s.devAddr ra y]

/-- A legal transfer's request carries the strap, so its one call does. -/
theorem CallsAtMost.callsTheStrap {s t : State} {x : Transfer} (h : CallsAtMost s t x.request) (hx : x.Legal s) :
    CallsTheStrap s t := by
  obtain ⟨c, -, hx⟩ := hx
  refine h.imp_right fun h => ?_
  rw [h]
  cases hq : x.request with
  | readBytes dev ra n =>
    obtain ⟨rfl, -⟩ : dev = s.devAddr ∧ _ := by simpa only [hq] using hx
    exact .inl ⟨ra, n, rfl⟩
  | writeBytes dev ra y =>
    obtain ⟨rfl, -⟩ : dev = s.devAddr ∧ _ := by simpa only [hq] using hx
    exact .inr ⟨ra, y, rfl⟩

theorem runRecord_callsTheStrap {r : CommandRecord} {s t : State} (h : runRecord r s = .next t) :
    CallsTheStrap s t := by
  rcases runRecord_cases h with ⟨_, rfl⟩ | ⟨i, _, _, h⟩
  · exact .inl rfl
  · rcases exec_transport_cases h with ⟨hcalls, -⟩ | ⟨x, hx, hcalls⟩
    · exact .inl hcalls
    · exact hcalls.callsTheStrap hx.legal

@[simp] theorem State.offerResponse_calls (s : State) (r : Response) : (s.offerResponse r).calls = s.calls := by
  unfold State.offerResponse
  split <;> rfl

/-- Settles O35: a call is made only by a record just accepted, whose transfer is legal as it starts, or for the request
in flight, which a legal state keeps legal. -/
theorem callsAppearOneAtATime : Obligations.CallsAppearOneAtATime := by
  intro s t hs h
  rcases step_cases h with ⟨_, rfl⟩ | ⟨_, _, _, rfl⟩ | ⟨_, _, r, rest, _, h⟩ | ⟨_, x, hp, h⟩ | ⟨_, x, _, h⟩ |
    ⟨_, r, _, rfl⟩
  · exact .inl rfl
  · exact .inl rfl
  · exact runRecord_callsTheStrap (s := { s with commands := rest }) h
  · obtain ⟨-, -, -, hx⟩ := hs
    exact (offerRequest_callsAtMost h).callsTheStrap (by simpa only [hp] using hx)
  · exact .inl (awaitAnswer_calls h)
  · exact .inl (State.offerResponse_calls s r)

/-! ### The checks before the request -/

theorem exceeds_eq_false_iff (cap : Option Nat) (n : Nat) : exceeds cap n = false ↔ ∀ m, cap = some m → n ≤ m := by
  cases cap <;> simp [exceeds]

theorem length_owners (segs : List Segment) (g : Nat) :
    (owners segs g).length = (segs.filter fun S => decide (S.lsb ≤ g ∧ g ≤ S.msb)).length :=
  List.length_map ..

theorem maxBit_le {segs : List Segment} {M : Nat} (h : ∀ S ∈ segs, S.msb ≤ M) : maxBit segs ≤ M := by
  induction segs with
  | nil => exact Nat.zero_le M
  | cons S rest ih =>
    obtain ⟨hS, hrest⟩ := List.forall_mem_cons.1 h
    exact Nat.max_le.2 ⟨hS, ih hrest⟩

theorem maxBit_eq {segs : List Segment} {M : Nat} (h : IsMaxBit segs M) : maxBit segs = M := by
  obtain ⟨hle, S, hS, rfl⟩ := h
  exact le_antisymm (maxBit_le hle) (msb_le_maxBit hS)

theorem gaps_eq_nil_iff (segs : List Segment) : gaps segs = [] ↔ ∀ g ≤ maxBit segs, owners segs g ≠ [] := by
  simp [gaps]

theorem conflicts_eq_nil_iff (segs : List Segment) :
    conflicts segs = [] ↔ ∀ g ≤ maxBit segs, (owners segs g).length < 2 := by
  simp [conflicts]

/-- The checker passes a layout when every bit has exactly one owner: no gap, and no conflict (R102). -/
theorem layoutError_eq_none_iff (segs : List Segment) :
    layoutError segs = none ↔ ∀ g ≤ maxBit segs, (owners segs g).length = 1 := by
  have hsplit : layoutError segs = none ↔ gaps segs = [] ∧ conflicts segs = [] := by
    by_cases hg : gaps segs = [] <;> simp [layoutError, hg]
  rw [hsplit, gaps_eq_nil_iff, conflicts_eq_nil_iff, ← forall₂_and]
  refine forall₂_congr fun g _ => ?_
  rw [← List.length_pos_iff]
  omega

theorem layoutError_eq_none_iff_partitions {segs : List Segment} {M : Nat} (h : IsMaxBit segs M) :
    layoutError segs = none ↔ Partitions segs M := by
  simp only [layoutError_eq_none_iff, maxBit_eq h, length_owners]

/-- A READ that passes its checks offers its request (R100). -/
theorem exec_read_of_checks {s : State} {reg : Name} {c : RegCtx} (hc : s.findReg reg = some c)
    (hmode : c.mode.readable = true) (hmax : exceeds s.params.maxBytes (totalBytes c.segs) = false) :
    exec (.read reg) s =
      s.offerRequest { reg := reg, request := .readBytes s.devAddr c.raddr (totalBytes c.segs) } := by
  simp [exec, execRead, State.withReg_some s reg _ c hc, RegCtx.mayRead, hmode, hmax]

/-- A WRITE that passes its checks offers its request (R101). -/
theorem exec_write_of_checks {s : State} {reg : Name} {c : RegCtx} (hc : s.findReg reg = some c)
    (hmode : c.mode.writable = true) (hne : c.segs ≠ []) (hlayout : layoutError c.segs = none) :
    exec (.write reg) s =
      s.offerRequest { reg := reg, request := .writeBytes s.devAddr c.raddr (pack c.segs) } := by
  simp [exec, execWrite, State.withReg_some s reg _ c hc, RegCtx.mayWrite, hmode, hne, hlayout]

/-- Settles O33: with its checks passed, either command does exactly what offering its request does. -/
theorem transfersWaitForTheTransport : Obligations.TransfersWaitForTheTransport := by
  intro s i q reg before c after hbank hbefore hname hi
  have hc : s.findReg reg = some c := (State.findReg_some_iff s reg c).2 ⟨hname, before, after, hbank, hbefore⟩
  rcases hi with ⟨rfl, hmode, n, hn, hmax, rfl⟩ | ⟨rfl, hmode, ⟨M, hM, hpart⟩, rfl⟩
  · obtain rfl : totalBytes c.segs = n := hn.symm
    rw [exec_read_of_checks hc hmode ((exceeds_eq_false_iff _ _).2 hmax)]
    exact ⟨.inl ⟨rfl, rfl⟩, offerRequest_waits s _⟩
  · have hne : c.segs ≠ [] := by
      obtain ⟨-, S, hS, -⟩ := hM
      exact List.ne_nil_of_mem hS
    rw [exec_write_of_checks hc hmode hne ((layoutError_eq_none_iff_partitions hM).2 hpart)]
    exact ⟨.inr ⟨rfl, rfl⟩, offerRequest_waits s _⟩

end Sys2Proof.Machine
end

section
/-! ## The encoding: opcodes, formats, the decoder and the one response of each command (spec/30_encoding.md R50 to R59;
spec/70_reset_and_hazards.md R166) -/

namespace Sys2Proof

/-! ### The opcode map and the AccessMode encoding -/

@[simp] theorem AccessMode.ofBits_toBits (m : AccessMode) : AccessMode.ofBits m.toBits = m := by
  obtain ⟨readable, writable⟩ := m
  cases readable <;> cases writable <;> rfl

@[simp] theorem AccessMode.toBits_ofBits (b : BitVec 2) : (AccessMode.ofBits b).toBits = b := by
  revert b
  decide

/-- The `op` byte of an opcode is its entry in the map. -/
theorem Opcode.code_of_ofCode {b : BitVec 8} {o : Opcode} (h : Opcode.ofCode b = some o) : o.code = b := by
  simpa using List.find?_some h

theorem Opcode.ofCode_eq_none {b : BitVec 8} (h : ∀ o : Opcode, o.code ≠ b) : Opcode.ofCode b = none := by
  simp [Opcode.ofCode, h]

/-- The five ranges of reserved `op` bytes (R53). -/
abbrev IsReservedOp (b : BitVec 8) : Prop :=
  b = 0x00#8 ∨ (0x06#8 ≤ b ∧ b ≤ 0x0F#8) ∨ (0x16#8 ≤ b ∧ b ≤ 0x1F#8) ∨ (0x24#8 ≤ b ∧ b ≤ 0x2F#8) ∨
    (0x32#8 ≤ b ∧ b ≤ 0xFF#8)

theorem Opcode.code_not_reserved (o : Opcode) : ¬ IsReservedOp o.code := by
  cases o <;> decide

theorem Opcode.ofCode_of_reserved {b : BitVec 8} (h : IsReservedOp b) : Opcode.ofCode b = none :=
  Opcode.ofCode_eq_none fun o ho => o.code_not_reserved (ho ▸ h)

/-! ### The fields a format names -/

@[simp] theorem CommandRecord.restrict_op (r : CommandRecord) (f : Format) : (r.restrict f).op = r.op := by
  cases f <;> rfl

/-- A command reads only the fields its format names (R59). -/
theorem CommandRecord.toInstr_restrict (r : CommandRecord) (o : Opcode) :
    (r.restrict o.format).toInstr o = r.toInstr o := by
  cases o <;> rfl

theorem CommandRecord.toInstr_opcode (r : CommandRecord) (o : Opcode) : (r.toInstr o).opcode = o := by
  cases o <;> rfl

/-- The record of the command that a record stands for is that record, cut to the fields its format names. -/
theorem CommandRecord.encode_toInstr {r : CommandRecord} {o : Opcode} (h : o.code = r.op) :
    encode (r.toInstr o) = r.restrict o.format := by
  obtain ⟨op, reg, seg, n0, n1, ival, raddr, mode, vec, bytes⟩ := r
  obtain rfl : o.code = op := h
  cases o with
  | regadd => simp [CommandRecord.toInstr, encode, CommandRecord.restrict, Opcode.format, Opcode.code]
  | _ => rfl

/-- The command's own record gives it back. -/
theorem toInstr_encode (i : Instr) : (encode i).toInstr i.opcode = i := by
  cases i with
  | regadd reg raddr mode => simp [encode, Instr.opcode, CommandRecord.toInstr]
  | _ => rfl

/-- The row of the opcode table, for every command. -/
theorem rowOfTable : (i : Instr) → Laws.RowOfTable.Statement i
  | .tobits value width => Laws.RowOfTable.tobits value width
  | .toint vec => Laws.RowOfTable.toint vec
  | .totc vec => Laws.RowOfTable.totc vec
  | .nbytes n => Laws.RowOfTable.nbytes n
  | .padbytes vec => Laws.RowOfTable.padbytes vec
  | .regadd reg raddr mode => Laws.RowOfTable.regadd reg raddr mode
  | .segadd reg seg lsb msb => Laws.RowOfTable.segadd reg seg lsb msb
  | .regget reg => Laws.RowOfTable.regget reg
  | .segget reg seg => Laws.RowOfTable.segget reg seg
  | .totbits reg => Laws.RowOfTable.totbits reg
  | .totbytes reg => Laws.RowOfTable.totbytes reg
  | .setbits reg seg vec => Laws.RowOfTable.setbits reg seg vec
  | .segupd reg seg bytes => Laws.RowOfTable.segupd reg seg bytes
  | .segint reg seg => Laws.RowOfTable.segint reg seg
  | .segtc reg seg => Laws.RowOfTable.segtc reg seg
  | .read reg => Laws.RowOfTable.read reg
  | .write reg => Laws.RowOfTable.write reg

/-! ### The decoder -/

theorem decode_of_no_opcode {r : CommandRecord} (h : Opcode.ofCode r.op = none) :
    decode r = .error (.illegalCommand r.op) := by
  simp [decode, h]

theorem decode_of_opcode {r : CommandRecord} {o : Opcode} (h : Opcode.ofCode r.op = some o) :
    decode r = .ok (r.toInstr o) := by
  simp [decode, h]

theorem decode_eq_ok_iff (r : CommandRecord) (i : Instr) :
    decode r = .ok i ↔ ∃ o, Opcode.ofCode r.op = some o ∧ r.toInstr o = i := by
  cases h : Opcode.ofCode r.op with
  | none => simp [decode_of_no_opcode h]
  | some o => simp [decode_of_opcode h]

theorem decode_encode (i : Instr) : decode (encode i) = .ok i := by
  obtain ⟨hop, -⟩ := rowOfTable i
  rw [decode_of_opcode hop, toInstr_encode]

/-- A record decodes to the command whose own record has its `op` and its named fields, and to no other. -/
theorem decode_eq_ok_iff_restrict (r : CommandRecord) (i : Instr) :
    decode r = .ok i ↔ r.restrict i.opcode.format = encode i := by
  rw [decode_eq_ok_iff]
  constructor
  · rintro ⟨o, ho, rfl⟩
    rw [r.toInstr_opcode, CommandRecord.encode_toInstr (Opcode.code_of_ofCode ho)]
  · intro h
    obtain ⟨hrow, -⟩ := rowOfTable i
    refine ⟨i.opcode, ?_, ?_⟩
    · rw [← r.restrict_op i.opcode.format, h, hrow]
    · rw [← r.toInstr_restrict, h, toInstr_encode]

/-- The decoder looks at the `op` and at the fields its format names, and at nothing else (R59). -/
theorem decode_congr {r r' : CommandRecord} (hop : r.op = r'.op)
    (h : ∀ o, Opcode.ofCode r.op = some o → r.restrict o.format = r'.restrict o.format) : decode r = decode r' := by
  cases ho : Opcode.ofCode r.op with
  | none => rw [decode_of_no_opcode ho, decode_of_no_opcode (hop ▸ ho), hop]
  | some o =>
    rw [decode_of_opcode ho, decode_of_opcode (hop ▸ ho), ← r.toInstr_restrict, h o ho, r'.toInstr_restrict]

end Sys2Proof

namespace Sys2Proof.Machine

/-- Settles O1: the decoder takes the opcode of the command's row and reads the fields of its own record. -/
theorem decodeAndEncodeAgree : Obligations.DecodeAndEncodeAgree :=
  ⟨decode_encode, decode_eq_ok_iff_restrict⟩

/-! ### Accepting a record -/

theorem step_of_command {s : State} {r : CommandRecord} {rest : List CommandRecord} (hrst : s.rst = false)
    (hp : s.phase = .idle) (hc : s.commands = r :: rest) : step s = runRecord r { s with commands := rest } := by
  simp [step, State.fetch, hrst, hp, hc]

theorem runRecord_of_no_opcode {r : CommandRecord} (h : Opcode.ofCode r.op = none) (s : State) :
    runRecord r s = s.raise .illegalCommand (.opcode r.op) := by
  simp [runRecord, decode_of_no_opcode h, State.rejectRecord]

theorem runRecord_of_wf {r : CommandRecord} {i : Instr} {s : State} (h : decode r = .ok i)
    (hi : i.wf s.params = true) : runRecord r s = exec i s := by
  simp [runRecord, h, hi]

theorem runRecord_of_misfit {r : CommandRecord} {i : Instr} {s : State} (h : decode r = .ok i)
    (hi : i.wf s.params = false) : runRecord r s = .refused .recordDoesNotFit := by
  simp [runRecord, h, hi]

/-- What a record does depends only on what it decodes to. -/
theorem runRecord_congr {r r' : CommandRecord} (h : decode r = decode r') (s : State) :
    runRecord r s = runRecord r' s := by
  simp only [runRecord, h]

/-- Settles O2: the two records decode alike, and a step looks at no more of a record than that. -/
theorem unnamedFieldsHaveNoEffect : Obligations.UnnamedFieldsHaveNoEffect := by
  intro r r' hop hfields
  have hdecode : decode r = decode r' := decode_congr hop hfields
  refine ⟨hdecode, fun s rest hrst hp => ?_⟩
  rw [step_of_command (s := { s with commands := r :: rest }) hrst hp rfl,
    step_of_command (s := { s with commands := r' :: rest }) hrst hp rfl]
  exact runRecord_congr hdecode _

/-- Settles O3: no row of the opcode map lies in a reserved range. -/
theorem reservedOpsAnswerIllegalCommand : Obligations.ReservedOpsAnswerIllegalCommand := by
  intro s r rest hrst hp hc hreserved
  rw [step_of_command hrst hp hc]
  exact runRecord_of_no_opcode (Opcode.ofCode_of_reserved hreserved) _

/-! ### One response per command -/

/-- From `s` to `t` no record is accepted and no response is taken, and the block is in `t` busy with a command. -/
def StaysOccupied (s t : State) : Prop :=
  t.commands = s.commands ∧ t.responses = s.responses ∧ t.busy = true

theorem finishTransfer_staysOccupied {s t : State} {x : Transfer} {a : TransportAnswer}
    (h : s.finishTransfer x a = .next t) : StaysOccupied s t := by
  rcases State.finishTransfer_cases h with ⟨_, rfl⟩ | ⟨_, _, rfl⟩ | ⟨_, _, c, _, ⟨_, rfl⟩ | ⟨S, _, rfl⟩⟩ <;>
    exact ⟨rfl, rfl, rfl⟩

theorem awaitAnswer_staysOccupied {s t : State} {x : Transfer} (h : s.awaitAnswer x = .next t) :
    StaysOccupied s t := by
  rcases State.awaitAnswer_cases h with ⟨_, rfl⟩ | ⟨a, rest, _, h⟩
  · exact ⟨rfl, rfl, rfl⟩
  · exact finishTransfer_staysOccupied (s := { s with answers := rest, stale := 0 }) h

theorem offerRequest_staysOccupied {s t : State} {x : Transfer} (h : s.offerRequest x = .next t) :
    StaysOccupied s t := by
  rcases State.offerRequest_cases h with ⟨_, rfl⟩ | ⟨_, h⟩
  · exact ⟨rfl, rfl, rfl⟩
  · exact awaitAnswer_staysOccupied (s := { s with calls := s.calls ++ [x.request] }) h

/-- A command that has run is in flight or answered, with its response not yet taken. -/
theorem exec_staysOccupied {i : Instr} {s t : State} (h : exec i s = .next t) : StaysOccupied s t := by
  rcases exec_cases h with ⟨u, e, hw, f, d, _, rfl⟩ | ⟨x, _, h⟩
  · rw [hw.frame]
    exact ⟨rfl, rfl, rfl⟩
  · exact offerRequest_staysOccupied h

theorem runRecord_staysOccupied {r : CommandRecord} {s t : State} (h : runRecord r s = .next t) :
    StaysOccupied s t := by
  rcases runRecord_cases h with ⟨_, rfl⟩ | ⟨i, _, _, h⟩
  · exact ⟨rfl, rfl, rfl⟩
  · exact exec_staysOccupied h

/-- The commands given so far, by where each stands: not accepted, in flight or offered, answered and taken (R56). -/
def State.commandCount (s : State) : Nat :=
  s.commands.length + s.busy.toNat + s.responses.length

/-- What O45 says of one step: no command is lost or answered twice, none is accepted while the block is busy, and no
response is handed over while it is not. -/
def OneAtATime (s t : State) : Prop :=
  t.commandCount = s.commandCount ∧ (s.busy = true → t.commands = s.commands) ∧
    (s.busy = false → t.responses = s.responses)

/-- A busy block that stays busy moves no command on. -/
theorem StaysOccupied.oneAtATime {s t : State} (h : StaysOccupied s t) (hs : s.busy = true) : OneAtATime s t := by
  obtain ⟨hcommands, hresponses, ht⟩ := h
  exact ⟨by simp [State.commandCount, hcommands, hresponses, ht, hs], fun _ => hcommands, fun _ => hresponses⟩

/-- An idle block that accepts a record is busy with that one command. -/
theorem StaysOccupied.oneAtATime_of_accepted {s t : State} {r : CommandRecord} {rest : List CommandRecord}
    (h : StaysOccupied { s with commands := rest } t) (hs : s.busy = false) (hc : s.commands = r :: rest) :
    OneAtATime s t := by
  obtain ⟨hcommands, hresponses, ht⟩ := h
  exact ⟨by simp [State.commandCount, hcommands, hresponses, ht, hs, hc], by simp [hs], fun _ => hresponses⟩

/-- Handing over a response ends the one command the block was busy with. -/
theorem offerResponse_oneAtATime {s : State} {r : Response} (hp : s.phase = .responding r) :
    OneAtATime s (s.offerResponse r) := by
  have hs : s.busy = true := by simp [State.busy, hp]
  unfold State.offerResponse
  split
  · refine ⟨?_, fun _ => rfl, by simp [hs]⟩
    simp only [State.commandCount, State.busy, hp, List.length_append, List.length_singleton, Bool.toNat_true,
      Bool.toNat_false]
    omega
  · exact ⟨rfl, fun _ => rfl, fun _ => rfl⟩

/-- Settles O45: a step accepts a command, goes on with the one in flight, or hands over its response. -/
theorem oneResponsePerCommand : Obligations.OneResponsePerCommand := by
  intro s t hrst h
  change OneAtATime s t
  rcases step_cases h with ⟨hreset, _⟩ | ⟨_, _, _, rfl⟩ | ⟨_, hp, r, rest, hc, h⟩ | ⟨_, x, hp, h⟩ | ⟨_, x, hp, h⟩ |
    ⟨_, r, hp, rfl⟩
  · simp [hrst] at hreset
  · exact ⟨rfl, fun _ => rfl, fun _ => rfl⟩
  · exact (runRecord_staysOccupied h).oneAtATime_of_accepted (by simp [State.busy, hp]) hc
  · exact (offerRequest_staysOccupied h).oneAtATime (by simp [State.busy, hp])
  · exact (awaitAnswer_staysOccupied h).oneAtATime (by simp [State.busy, hp])
  · exact offerResponse_oneAtATime hp

/-! ### Fixed words and codes -/

/-- Settles O4: the decoder evaluated on each word. -/
theorem tableWordsDecode : Obligations.TableWordsDecode :=
  ⟨rfl, rfl, rfl, rfl, rfl⟩

/-- Settles O5: accepting the record is running it, and whether its operands fit decides which way. -/
theorem stepRunsTheDecodedCommand : Obligations.StepRunsTheDecodedCommand := by
  intro s r rest i hrst hp hc hi
  rw [step_of_command hrst hp hc]
  exact ⟨runRecord_of_wf (s := { s with commands := rest }) hi,
    runRecord_of_misfit (s := { s with commands := rest }) hi⟩

/-- Settles O43: the table's codes, row by row. -/
theorem statusCodesFollowTheTable : Obligations.StatusCodesFollowTheTable := by
  refine ⟨rfl, fun e => ?_⟩
  cases e <;> decide

/-- Settles O44: the four encodings, and the round trip over both capabilities. -/
theorem accessModeBits : Obligations.AccessModeBits :=
  ⟨rfl, rfl, rfl, rfl, AccessMode.ofBits_toBits⟩

end Sys2Proof.Machine
end

section
/-! ## The conversion functions: integers, bit-vectors and padded bytes (spec/40_conversions.md R70 to R75) -/

namespace Sys2Proof.Machine

/-! ### Unsigned values (R70, R71) -/

/-- The value of a vector is the weighted sum of its elements, over any number of positions that holds it. -/
theorem toInt_eq_sum {b : Bits} {n : Nat} (h : b.length ≤ n) :
    toInt b = ∑ i ∈ Finset.range n, (b.getD i false).toNat * 2 ^ i := by
  induction b generalizing n with
  | nil => simp
  | cons x xs ih =>
    obtain ⟨m, rfl⟩ : ∃ m, n = m + 1 := ⟨n - 1, by simp only [List.length_cons] at h; omega⟩
    rw [toInt_cons, ih (Nat.le_of_succ_le_succ h), Finset.sum_range_succ', Finset.mul_sum, add_comm]
    simp [pow_succ', mul_left_comm]

/-- The value of a vector's first elements, cut at any position. -/
theorem toInt_take_add (b : Bits) (m n : Nat) :
    toInt (b.take (m + n)) = toInt (b.take m) + 2 ^ m * toInt ((b.drop m).take n) := by
  rw [List.take_add, toInt_append]
  rcases le_total m b.length with h | h
  · rw [List.length_take_of_le h]
  · simp [List.drop_eq_nil_of_le h]

/-- Law 1 (R75) for every value: `to_bits` keeps the value's low bits. -/
theorem toInt_toBits (v w : Nat) : toInt (toBits v w) = v % 2 ^ w := by
  refine Nat.eq_of_testBit_eq fun i => ?_
  rw [testBit_toInt, Nat.testBit_mod_two_pow, List.getD_eq_getElem?_getD]
  by_cases hi : i < w
  · rw [toBits_getElem? hi, Nat.testBit_eq_decide_div_mod_eq]
    simp [hi]
  · simp [hi]

theorem toBits_toInt (b : Bits) : toBits (toInt b) b.length = b := by
  refine List.ext_getElem (length_toBits _ _) fun i _ hi => ?_
  rw [List.getElem_eq_iff, toBits_getElem? hi, ← Nat.testBit_eq_decide_div_mod_eq, testBit_toInt]
  simp [hi]

theorem inRange_eq_false_iff (v : Int) (w : Nat) : inRange v w = false ↔ v < 0 ∨ (2 : Int) ^ w ≤ v := by
  simp only [inRange, decide_eq_false_iff_not]
  omega

theorem inRange_natCast {v w : Nat} (h : v < 2 ^ w) : inRange v w = true :=
  decide_eq_true ⟨Int.natCast_nonneg v, by exact_mod_cast h⟩

/-! ### Signed values (R72) -/

/-- Two's complement: the highest bit weighs `-2^(len - 1)`, the others what they weigh unsigned. -/
theorem toTwosCompInt_concat (b : Bits) (x : Bool) :
    toTwosCompInt (b ++ [x]) = toInt b - 2 ^ b.length * x.toNat := by
  cases x with
  | false => simp [toTwosCompInt, toInt_append]
  | true =>
    simp only [toTwosCompInt, List.getLast?_concat, if_true, toInt_append, toInt_cons, toInt_nil, Bool.toNat_true,
      List.length_append, List.length_singleton, pow_succ]
    push_cast
    ring

theorem toInt_replicate_true (n : Nat) : toInt (List.replicate n true) + 1 = 2 ^ n := by
  induction n with
  | zero => rfl
  | succ n ih =>
    simp only [List.replicate_succ, toInt_cons, Bool.toNat_true, pow_succ]
    omega

theorem toInt_replicate_false (n : Nat) : toInt (List.replicate n false) = 0 := by
  induction n with
  | zero => rfl
  | succ n ih => simp [List.replicate_succ, ih]

/-- Law 3 (R75) on ones: the lower ones are together worth one less than what the highest takes away. -/
theorem toTwosCompInt_replicate_true {n : Nat} (h : 1 ≤ n) : toTwosCompInt (List.replicate n true) = -1 := by
  obtain ⟨m, rfl⟩ : ∃ m, n = m + 1 := ⟨n - 1, by omega⟩
  have hm : (toInt (List.replicate m true) : Int) + 1 = 2 ^ m := by exact_mod_cast toInt_replicate_true m
  rw [List.replicate_succ', toTwosCompInt_concat, List.length_replicate, ← hm]
  simp

theorem toTwosCompInt_replicate_false (n : Nat) : toTwosCompInt (List.replicate n false) = 0 := by
  cases n with
  | zero => rfl
  | succ m => simp [List.replicate_succ', toTwosCompInt_concat, toInt_replicate_false]

theorem toTwosCompInt_emod (b : Bits) : toTwosCompInt b % 2 ^ b.length = toInt b := by
  have hlt : (toInt b : Int) < 2 ^ b.length := by exact_mod_cast toInt_lt b
  have hmod : (toInt b : Int) % 2 ^ b.length = toInt b := Int.emod_eq_of_lt (Int.natCast_nonneg _) hlt
  unfold toTwosCompInt
  split
  · rw [Int.sub_emod_right, hmod]
  · exact hmod

/-- The range of a signed value of `len` bits. -/
theorem toTwosCompInt_bounds {b : Bits} (h : 1 ≤ b.length) :
    -(2 ^ (b.length - 1)) ≤ toTwosCompInt b ∧ toTwosCompInt b < 2 ^ (b.length - 1) := by
  obtain ⟨a, x, rfl⟩ : ∃ a x, b = a ++ [x] := ⟨_, _, (List.dropLast_append_getLast (List.length_pos_iff.1 h)).symm⟩
  have hlt : (toInt a : Int) < 2 ^ a.length := by exact_mod_cast toInt_lt a
  rw [toTwosCompInt_concat, List.length_append, List.length_singleton, Nat.add_sub_cancel]
  cases x with
  | false => simp only [Bool.toNat_false]; omega
  | true => simp only [Bool.toNat_true]; omega

/-! ### Bytes (R73, R74) -/

/-- `ceil(n / 8)`: the bytes hold `n` bits, and one fewer would not. -/
theorem numBytesForBits_bounds (n : Nat) : n ≤ 8 * numBytesForBits n ∧ 8 * numBytesForBits n < n + 8 := by
  simp only [numBytesForBits]
  omega

/-- A group has at most 8 bits, so its byte is its value. -/
theorem toNat_groupByte (b : Bits) (j : Nat) : (groupByte b j).toNat = toInt ((b.drop (8 * j)).take 8) := by
  have hlt := toInt_lt ((b.drop (8 * j)).take 8)
  have hle : 2 ^ ((b.drop (8 * j)).take 8).length ≤ 2 ^ 8 := Nat.pow_le_pow_right (by decide) (List.length_take_le ..)
  rw [groupByte, BitVec.toNat_ofNat, Nat.mod_eq_of_lt (hlt.trans_le hle)]

/-- Element `8j + k` of the vector weighs `2^k` in byte `j`. -/
theorem toNat_groupByte_eq_sum (b : Bits) (j : Nat) :
    (groupByte b j).toNat = ∑ k ∈ Finset.range 8, (b.getD (8 * j + k) false).toNat * 2 ^ k := by
  rw [toNat_groupByte, toInt_eq_sum (List.length_take_le ..)]
  refine Finset.sum_congr rfl fun k hk => ?_
  simp [List.getD_eq_getElem?_getD, Finset.mem_range.1 hk]

theorem toPaddedByteArr_getD {b : Bits} {j : Nat} (h : j < (toPaddedByteArr b).length) :
    (toPaddedByteArr b).getD j 0#8 = groupByte b j := by
  rw [length_toPaddedByteArr] at h
  simp [toPaddedByteArr, h]

/-- The first `n` bytes hold the value of the first `8n` bits. -/
theorem sum_groupByte (b : Bits) (n : Nat) :
    ∑ j ∈ Finset.range n, (groupByte b j).toNat * 256 ^ j = toInt (b.take (8 * n)) := by
  induction n with
  | zero => simp
  | succ n ih =>
    have hweight : (256 : Nat) ^ n = 2 ^ (8 * n) := by rw [pow_mul]; norm_num
    rw [Finset.sum_range_succ, ih, Nat.mul_succ, toInt_take_add, toNat_groupByte, hweight, mul_comm (toInt _)]

/-- The bytes of a vector, weighed by 256, have its value. -/
theorem sum_toPaddedByteArr (b : Bits) :
    ∑ j ∈ Finset.range (toPaddedByteArr b).length, ((toPaddedByteArr b).getD j 0#8).toNat * 256 ^ j = toInt b := by
  have hcover : b.length ≤ 8 * (toPaddedByteArr b).length := by
    rw [length_toPaddedByteArr]
    exact (numBytesForBits_bounds b.length).1
  calc ∑ j ∈ Finset.range (toPaddedByteArr b).length, ((toPaddedByteArr b).getD j 0#8).toNat * 256 ^ j
      = ∑ j ∈ Finset.range (toPaddedByteArr b).length, (groupByte b j).toNat * 256 ^ j :=
        Finset.sum_congr rfl fun j hj => by rw [toPaddedByteArr_getD (Finset.mem_range.1 hj)]
    _ = toInt (b.take (8 * (toPaddedByteArr b).length)) := sum_groupByte b _
    _ = toInt b := by rw [List.take_of_length_le hcover]

/-! ### The bit-vector of an operand (R61, R76) -/

/-- An element that is a bit is the number its bit stands for. -/
theorem toNat_bitsOf_getD {vec : List Nat} (h : ∀ e ∈ vec, e ≤ 1) (i : Nat) :
    ((bitsOf vec).getD i false).toNat = vec.getD i 0 := by
  by_cases hi : i < vec.length
  · have hbit := h _ (List.getElem_mem hi)
    interval_cases hv : vec[i] <;> simp [bitsOf, hi, hv]
  · simp [bitsOf, hi]

theorem toInt_bitsOf {vec : List Nat} (h : ∀ e ∈ vec, e ≤ 1) :
    toInt (bitsOf vec) = ∑ i ∈ Finset.range vec.length, vec.getD i 0 * 2 ^ i := by
  rw [toInt_eq_sum (length_bitsOf vec).le]
  simp only [toNat_bitsOf_getD h]

theorem bitsOf_getLast?_iff (vec : List Nat) : (bitsOf vec).getLast? = some true ↔ vec.getLast? = some 1 := by
  simp [bitsOf, List.getLast?_map]

theorem toTwosCompInt_bitsOf {vec : List Nat} (h : ∀ e ∈ vec, e ≤ 1) :
    toTwosCompInt (bitsOf vec) =
      (∑ i ∈ Finset.range vec.length, (vec.getD i 0 : Int) * 2 ^ i) -
        (if vec.getLast? = some 1 then 2 ^ vec.length else 0) := by
  have hsum : (toInt (bitsOf vec) : Int) = ∑ i ∈ Finset.range vec.length, (vec.getD i 0 : Int) * 2 ^ i := by
    rw [toInt_bitsOf h]
    push_cast
    rfl
  simp only [toTwosCompInt, bitsOf_getLast?_iff, length_bitsOf, ← hsum]
  split <;> simp

/-- The lowest offending index is the length of the well-formed part before it. -/
theorem firstBad_append {before after : List Nat} {e : Nat} (hb : ∀ d ∈ before, d ≤ 1) (he : 1 < e) :
    firstBad (before ++ e :: after) = some before.length := by
  have hfront : before.findIdx? (fun d => !isBit d) = none := (firstBad_none_iff before).2 hb
  rw [firstBad, List.findIdx?_append, hfront]
  simp [List.findIdx?_cons, isBit, he]

theorem exceeds_eq_true_iff (cap : Option Nat) (n : Nat) : exceeds cap n = true ↔ ∃ m, cap = some m ∧ m < n := by
  cases cap <;> simp [exceeds]

end Sys2Proof.Machine
end

section
/-! ## The conversion commands: the check of their operand and what they answer (spec/40_conversions.md R70 to R76) -/

namespace Sys2Proof.Machine

/-! ### The operand's check (R76) -/

theorem State.withVec_of_exceeds {s : State} {vec : List Nat} (h : exceeds s.params.maxBits vec.length = true)
    (k : Bits → Result) : s.withVec vec k = failed s .capacityExceeded (.capacity .bits) :=
  if_pos h

theorem State.withVec_of_firstBad {s : State} {vec : List Nat} {i : Nat}
    (hcap : exceeds s.params.maxBits vec.length = false) (h : firstBad vec = some i) (k : Bits → Result) :
    s.withVec vec k = failed s .invalidBitValue (.index i) := by
  simp only [State.withVec, hcap, h]
  rfl

theorem State.withVec_of_bits {s : State} {vec : List Nat} (hcap : exceeds s.params.maxBits vec.length = false)
    (h : firstBad vec = none) (k : Bits → Result) : s.withVec vec k = k (bitsOf vec) := by
  simp only [State.withVec, hcap, h]
  rfl

/-! ### The commands -/

/-- `i` takes `vec` through the operand's check and answers what `g` makes of its bits. -/
def ConvertsVec (i : Instr) (vec : List Nat) (g : Bits → Results → Results) : Prop :=
  ∀ s, exec i s = s.withVec vec fun b => succeeded s (g b)

theorem convertsVec_toint (vec : List Nat) : ConvertsVec (.toint vec) vec fun b f => { f with uval := toInt b } :=
  fun _ => rfl

theorem convertsVec_totc (vec : List Nat) :
    ConvertsVec (.totc vec) vec fun b f => { f with sval := toTwosCompInt b } :=
  fun _ => rfl

theorem convertsVec_padbytes (vec : List Nat) :
    ConvertsVec (.padbytes vec) vec fun b f => { f with bytes := toPaddedByteArr b } :=
  fun _ => rfl

/-- A vector that passes the check is answered. -/
theorem ConvertsVec.exec_of_wellFormed {i : Instr} {vec : List Nat} {g : Bits → Results → Results}
    (hi : ConvertsVec i vec g) {s : State} (hcap : ∀ m, s.params.maxBits = some m → vec.length ≤ m)
    (hbits : ∀ e ∈ vec, e ≤ 1) : exec i s = succeeded s (g (bitsOf vec)) := by
  rw [hi s, State.withVec_of_bits ((exceeds_eq_false_iff _ _).2 hcap) ((firstBad_none_iff vec).2 hbits)]

theorem exec_nbytes (n : Nat) (s : State) :
    exec (.nbytes n) s = succeeded s fun f => { f with uval := numBytesForBits n } := rfl

theorem exec_tobits_of_exceeds {s : State} {w : Nat} (h : exceeds s.params.maxBits w = true) (v : Int) :
    exec (.tobits v w) s = failed s .capacityExceeded (.capacity .bits) :=
  if_pos h

theorem exec_tobits_of_inRange {s : State} {v : Int} {w : Nat} (hcap : exceeds s.params.maxBits w = false)
    (h : inRange v w = true) :
    exec (.tobits v w) s = succeeded s fun f => { f with vec := toBits v.toNat w } := by
  simp only [exec, execTobits, hcap, h]
  rfl

theorem exec_tobits_of_not_inRange {s : State} {v : Int} {w : Nat} (hcap : exceeds s.params.maxBits w = false)
    (h : inRange v w = false) : exec (.tobits v w) s = failed s .rangeError .empty := by
  simp only [exec, execTobits, hcap, h]
  rfl

/-- A value out of range is refused in every block that can hold the width (R70; law 2 of R75). -/
theorem exec_tobits_rangeError {s : State} {v : Int} {w : Nat} (hcap : ∀ m, s.params.maxBits = some m → w ≤ m)
    (h : v < 0 ∨ (2 : Int) ^ w ≤ v) : exec (.tobits v w) s = failed s .rangeError .empty :=
  exec_tobits_of_not_inRange ((exceeds_eq_false_iff _ _).2 hcap) ((inRange_eq_false_iff v w).2 h)

/-! ### What they answer -/

/-- Settles O8: one lemma per outcome of the command, in the order it tests; the bits are those of `to_bits`. -/
theorem tobitsAnswersBitsOrRangeError : Obligations.TobitsAnswersBitsOrRangeError := by
  refine ⟨fun r hop => decode_of_opcode (o := .tobits) (by rw [hop]; rfl), fun s value width => ⟨?_, ?_, ?_⟩⟩
  · exact fun hcap => exec_tobits_of_exceeds ((exceeds_eq_true_iff _ _).2 hcap) value
  · exact exec_tobits_rangeError
  · rintro hcap v rfl hv
    exact ⟨toBits v width, length_toBits v width, fun i hi => toBits_getElem? hi,
      exec_tobits_of_inRange ((exceeds_eq_false_iff _ _).2 hcap) (inRange_natCast hv)⟩

/-- Settles O9: the vector passes the check, and the value of its bits is the weighted sum of its elements. -/
theorem tointAnswersTheWeightedSum : Obligations.TointAnswersTheWeightedSum := by
  intro s vec hcap hbits
  rw [(convertsVec_toint vec).exec_of_wellFormed hcap hbits, toInt_bitsOf hbits]

/-- Settles O10: as O9, with the signed value. -/
theorem totcAnswersTheSignedValue : Obligations.TotcAnswersTheSignedValue := by
  intro s vec hcap hbits
  rw [(convertsVec_totc vec).exec_of_wellFormed hcap hbits, toTwosCompInt_bitsOf hbits]

/-- Settles O12: the bytes are the groups of the vector's bits. -/
theorem padbytesAnswersTheGroups : Obligations.PadbytesAnswersTheGroups := by
  intro s vec hcap hbits
  refine ⟨toPaddedByteArr (bitsOf vec), ?_, fun j hj => ?_,
    (convertsVec_padbytes vec).exec_of_wellFormed hcap hbits⟩
  · rw [length_toPaddedByteArr, length_bitsOf, numBytesForBits]
  · rw [toPaddedByteArr_getD hj, toNat_groupByte_eq_sum]
    simp only [toNat_bitsOf_getD hbits]

/-- Settles O11: `num_bytes_for_bits` is the ceiling, and the command answers it. -/
theorem nbytesAnswersTheCeiling : Obligations.NbytesAnswersTheCeiling := by
  refine ⟨fun r hop => decode_of_opcode (o := .nbytes) (by rw [hop]; rfl), fun s n => ?_⟩
  obtain ⟨hle, hlt⟩ := numBytesForBits_bounds n
  exact ⟨numBytesForBits n, hle, hlt, exec_nbytes n s⟩

/-! ### The check and the state -/

/-- An element of one bit is 0 or 1 (R76). -/
theorem le_one_of_elemsFit {p : Params} (hw : p.elemW = some 1) {vec : List Nat} (h : elemsFit p vec = true) :
    ∀ e ∈ vec, e ≤ 1 := by
  intro e he
  have hfit : fits p.elemW e = true := List.all_eq_true.1 h e he
  simp only [hw, fits, decide_eq_true_eq] at hfit
  omega

/-- TOINT, TOTC and PADBYTES are conversions of their vector, whose elements are all the channel has to carry. -/
theorem convertsVec_of_conversion {i : Instr} {vec : List Nat}
    (hi : i = .toint vec ∨ i = .totc vec ∨ i = .padbytes vec) :
    (∃ g, ConvertsVec i vec g) ∧ ∀ p, i.wf p = elemsFit p vec := by
  rcases hi with rfl | rfl | rfl
  · exact ⟨⟨_, convertsVec_toint vec⟩, fun _ => rfl⟩
  · exact ⟨⟨_, convertsVec_totc vec⟩, fun _ => rfl⟩
  · exact ⟨⟨_, convertsVec_padbytes vec⟩, fun _ => rfl⟩

/-- Settles O13: the three commands run one check, whose outcome the length and the first offending element decide. -/
theorem conversionOperandsAreChecked : Obligations.ConversionOperandsAreChecked := by
  intro s vec i hi
  obtain ⟨⟨g, hg⟩, hwf⟩ := convertsVec_of_conversion hi
  refine ⟨fun m hm hlt => ?_, fun hcap before e after hvec hb he => ?_, fun hcap hbits => ?_,
    fun hmax helem hfit => ?_⟩
  · rw [hg s, State.withVec_of_exceeds ((exceeds_eq_true_iff _ _).2 ⟨m, hm, hlt⟩)]
  · have hbad : firstBad vec = some before.length := hvec ▸ firstBad_append hb he
    rw [hg s, State.withVec_of_firstBad ((exceeds_eq_false_iff _ _).2 hcap) hbad]
  · exact ⟨_, hg.exec_of_wellFormed hcap hbits⟩
  · exact ⟨_, hg.exec_of_wellFormed (by simp [hmax]) (le_one_of_elemsFit helem (hwf s.params ▸ hfit))⟩

/-- A command ends alike in every state of a block with parameters `p`. -/
def AnswersAlike (p : Params) (i : Instr) : Prop :=
  ∃ (e : Status) (fields : Results → Results) (d : Detail), ∀ s : State, s.params = p → exec i s = answered s e fields d

/-- The check and the conversion see the parameters and the operand only. -/
theorem ConvertsVec.answersAlike {i : Instr} {vec : List Nat} {g : Bits → Results → Results}
    (hi : ConvertsVec i vec g) (p : Params) : AnswersAlike p i := by
  cases hcap : exceeds p.maxBits vec.length with
  | true => exact ⟨_, _, _, fun s hs => by rw [hi s, State.withVec_of_exceeds (hs ▸ hcap)]; rfl⟩
  | false =>
    cases hbad : firstBad vec with
    | some k => exact ⟨_, _, _, fun s hs => by rw [hi s, State.withVec_of_firstBad (hs ▸ hcap) hbad]; rfl⟩
    | none => exact ⟨_, _, _, fun s hs => by rw [hi s, State.withVec_of_bits (hs ▸ hcap) hbad]; rfl⟩

theorem tobits_answersAlike (v : Int) (w : Nat) (p : Params) : AnswersAlike p (.tobits v w) := by
  cases hcap : exceeds p.maxBits w with
  | true => exact ⟨_, _, _, fun s hs => exec_tobits_of_exceeds (hs ▸ hcap) v⟩
  | false =>
    cases hv : inRange v w with
    | true => exact ⟨_, _, _, fun s hs => exec_tobits_of_inRange (hs ▸ hcap) hv⟩
    | false => exact ⟨_, _, _, fun s hs => exec_tobits_of_not_inRange (hs ▸ hcap) hv⟩

/-- Settles O15: the commands that name no register are the five conversions. -/
theorem conversionsReadNoState : Obligations.ConversionsReadNoState := by
  intro i p hi
  cases i with
  | tobits v w => exact tobits_answersAlike v w p
  | toint vec => exact (convertsVec_toint vec).answersAlike p
  | totc vec => exact (convertsVec_totc vec).answersAlike p
  | nbytes n => exact ⟨_, _, _, fun s _ => exec_nbytes n s⟩
  | padbytes vec => exact (convertsVec_padbytes vec).answersAlike p
  | _ => simp [namedReg] at hi

/-! ### The laws (R75) -/

/-- Settles O14: each law is one of the lemmas above. -/
theorem conversionLaws : Obligations.ConversionLaws :=
  ⟨fun v w hv => by rw [toInt_toBits, Nat.mod_eq_of_lt hv],
    ⟨inRange_eq_false_iff, fun _ _ _ => exec_tobits_rangeError⟩,
    fun _ => toTwosCompInt_replicate_true,
    toTwosCompInt_replicate_false,
    ⟨length_toPaddedByteArr, rfl⟩,
    ⟨rfl, rfl, rfl, rfl, rfl, numBytesForBits_bounds⟩,
    toBits_toInt,
    fun b hb => ⟨toTwosCompInt_emod b, toTwosCompInt_bounds hb⟩,
    sum_toPaddedByteArr⟩

end Sys2Proof.Machine
end

section
/-! ## The configuration commands: building the bank and asking about it (spec/41_configuration.md R80 to R85), and the
width of a partitioned register (spec/43_transfer.md R105) -/

namespace Sys2Proof.Machine

/-! ### The lookups and the capacity tests -/

theorem State.respondOk_eq_succeeded (s : State) (fields : Results → Results) :
    s.respondOk fields = succeeded s fields := rfl

theorem State.raise_eq_failed (s : State) (e : Status) (d : Detail) : s.raise e d = failed s e d := rfl

theorem State.findReg_of_bank {s : State} {reg : Name} {before : List RegCtx} {c : RegCtx} {after : List RegCtx}
    (hb : s.bank = before ++ c :: after) (hn : ∀ d ∈ before, d.name ≠ reg) (hc : c.name = reg) :
    s.findReg reg = some c :=
  (State.findReg_some_iff s reg c).2 ⟨hc, before, after, hb, hn⟩

theorem RegCtx.findSeg_of_segs {c : RegCtx} {seg : Name} {front : List Segment} {S : Segment} {back : List Segment}
    (hs : c.segs = front ++ S :: back) (hn : ∀ T ∈ front, T.name ≠ seg) (hS : S.name = seg) :
    c.findSeg seg = some S :=
  (RegCtx.findSeg_some_iff c seg S).2 ⟨hS, front, back, hs, hn⟩

/-- The slot of the entry that the lookup finds is the number of entries before it (R19). -/
theorem findIdx_append_cons {α : Type} {p : α → Bool} {before : List α} {a : α} (after : List α)
    (hb : ∀ b ∈ before, p b = false) (ha : p a = true) : (before ++ a :: after).findIdx p = before.length := by
  rw [List.findIdx_append, List.findIdx_eq_length_of_false hb]
  simp [List.findIdx_cons, ha]

theorem State.regSlot_of_bank {s : State} {reg : Name} {before : List RegCtx} {c : RegCtx} {after : List RegCtx}
    (hb : s.bank = before ++ c :: after) (hn : ∀ d ∈ before, d.name ≠ reg) (hc : c.name = reg) :
    s.regSlot reg = before.length := by
  rw [State.regSlot, hb]
  exact findIdx_append_cons after (by simpa using hn) (by simpa using hc)

theorem RegCtx.segSlot_of_segs {c : RegCtx} {seg : Name} {front : List Segment} {S : Segment} {back : List Segment}
    (hs : c.segs = front ++ S :: back) (hn : ∀ T ∈ front, T.name ≠ seg) (hS : S.name = seg) :
    c.segSlot seg = front.length := by
  rw [RegCtx.segSlot, hs]
  exact findIdx_append_cons back (by simpa using hn) (by simpa using hS)

/-- A lookup finds a register exactly when one of that name is in the bank. -/
theorem State.isSome_findReg_iff (s : State) (reg : Name) :
    (s.findReg reg).isSome = true ↔ ∃ c ∈ s.bank, c.name = reg := by
  simp [State.findReg]

/-- A lookup finds a segment exactly when one of that name is in the table. -/
theorem RegCtx.isSome_findSeg_iff (c : RegCtx) (seg : Name) :
    (c.findSeg seg).isSome = true ↔ ∃ S ∈ c.segs, S.name = seg := by
  simp [RegCtx.findSeg]

theorem atCapacity_eq_true_iff (cap : Option Nat) (n : Nat) : atCapacity cap n = true ↔ cap = some n :=
  decide_eq_true_iff

theorem atCapacity_eq_false_iff (cap : Option Nat) (n : Nat) : atCapacity cap n = false ↔ cap ≠ some n :=
  decide_eq_false_iff_not

theorem beyondBits_eq_true_iff (cap : Option Nat) (msb : Nat) :
    beyondBits cap msb = true ↔ ∃ m, cap = some m ∧ m ≤ msb := by
  cases cap <;> simp [beyondBits]

theorem beyondBits_eq_false_iff (cap : Option Nat) (msb : Nat) :
    beyondBits cap msb = false ↔ ∀ m, cap = some m → msb < m := by
  cases cap <;> simp [beyondBits]

/-! ### REGADD, outcome by outcome (R80) -/

section Regadd

variable {s : State} {reg : Name} (raddr : Nat) (mode : AccessMode)

theorem exec_regadd_of_known (h : (s.findReg reg).isSome = true) :
    exec (.regadd reg raddr mode) s = failed s .duplicateName (.named .register reg) :=
  if_pos h

theorem exec_regadd_of_full (hnew : s.findReg reg = none)
    (hfull : atCapacity s.params.maxRegs s.bank.length = true) :
    exec (.regadd reg raddr mode) s = failed s .capacityExceeded (.capacity .regs) := by
  simp [exec, execRegadd, hnew, hfull, State.raise_eq_failed]

theorem exec_regadd_of_room (hnew : s.findReg reg = none)
    (hroom : atCapacity s.params.maxRegs s.bank.length = false) :
    exec (.regadd reg raddr mode) s =
      succeeded (s.addReg { name := reg, raddr := raddr, mode := mode, segs := [] })
        fun f => { f with n0 := s.bank.length } := by
  simp [exec, execRegadd, hnew, hroom, State.respondOk_eq_succeeded]

end Regadd

/-! ### SEGADD on a register that exists, outcome by outcome (R81) -/

section Segadd

variable {s : State} {reg seg : Name} {lsb msb : Nat} {c : RegCtx}

theorem exec_segadd_of_reversed (hc : s.findReg reg = some c) (hlt : msb < lsb) :
    exec (.segadd reg seg lsb msb) s = failed s .configurationError (.pair lsb msb) := by
  simp [exec, execSegadd, State.withReg_some s reg _ c hc, hlt, State.raise_eq_failed]

theorem exec_segadd_of_known (hc : s.findReg reg = some c) (hle : lsb ≤ msb)
    (h : (c.findSeg seg).isSome = true) :
    exec (.segadd reg seg lsb msb) s = failed s .duplicateName (.named .segment seg) := by
  simp [exec, execSegadd, State.withReg_some s reg _ c hc, hle.not_gt, h, State.raise_eq_failed]

theorem exec_segadd_of_beyond (hc : s.findReg reg = some c) (hle : lsb ≤ msb) (hnew : c.findSeg seg = none)
    (hmax : beyondBits s.params.maxBits msb = true) :
    exec (.segadd reg seg lsb msb) s = failed s .capacityExceeded (.capacity .bits) := by
  simp [exec, execSegadd, State.withReg_some s reg _ c hc, hle.not_gt, hnew, hmax, State.raise_eq_failed]

theorem exec_segadd_of_full (hc : s.findReg reg = some c) (hle : lsb ≤ msb) (hnew : c.findSeg seg = none)
    (hmax : beyondBits s.params.maxBits msb = false) (hfull : atCapacity s.params.maxSegs c.segs.length = true) :
    exec (.segadd reg seg lsb msb) s = failed s .capacityExceeded (.capacity .segs) := by
  simp [exec, execSegadd, State.withReg_some s reg _ c hc, hle.not_gt, hnew, hmax, hfull, State.raise_eq_failed]

theorem exec_segadd_of_room (hc : s.findReg reg = some c) (hle : lsb ≤ msb) (hnew : c.findSeg seg = none)
    (hmax : beyondBits s.params.maxBits msb = false) (hroom : atCapacity s.params.maxSegs c.segs.length = false) :
    exec (.segadd reg seg lsb msb) s =
      succeeded
        (s.addSeg reg { name := seg, lsb := lsb, msb := msb, bits := List.replicate (msb - lsb + 1) false })
        fun f => { f with n0 := c.segs.length } := by
  simp [exec, execSegadd, State.withReg_some s reg _ c hc, hle.not_gt, hnew, hmax, hroom,
    State.respondOk_eq_succeeded]

end Segadd

/-- Appending a segment to the register the lookup finds writes that one entry of the bank. -/
theorem State.addSeg_eq {s : State} {reg : Name} {before : List RegCtx} {c : RegCtx} {after : List RegCtx}
    (hb : s.bank = before ++ c :: after) (hn : ∀ d ∈ before, d.name ≠ reg) (hc : c.name = reg) (S : Segment) :
    s.addSeg reg S = { s with bank := before ++ { c with segs := c.segs ++ [S] } :: after } :=
  State.updateSegs_eq hb hn hc

/-! ### The commands that only read the bank (R82 to R85) -/

section Reading

variable {s : State} {reg : Name} {c : RegCtx} (hc : s.findReg reg = some c)
include hc

theorem exec_regget_of_found :
    exec (.regget reg) s =
      succeeded s fun f =>
        { f with raddr := c.raddr, mode := c.mode, uval := c.segs.length, n0 := s.regSlot reg } :=
  State.withReg_some s reg _ c hc

theorem exec_segget_of_found {seg : Name} {S : Segment} (hS : c.findSeg seg = some S) :
    exec (.segget reg seg) s =
      succeeded s fun f => { f with n0 := S.lsb, n1 := S.msb, vec := S.bits, uval := c.segSlot seg } := by
  simp [exec, execSegget, State.withSeg, State.withReg_some s reg _ c hc, hS, State.respondOk_eq_succeeded]

theorem exec_totbits_of_found :
    exec (.totbits reg) s = succeeded s fun f => { f with uval := totalBits c.segs } :=
  State.withReg_some s reg _ c hc

theorem exec_totbytes_of_found :
    exec (.totbytes reg) s = succeeded s fun f => { f with uval := totalBytes c.segs } :=
  State.withReg_some s reg _ c hc

end Reading

/-! ### What they answer -/

/-- Settles O16: whether the name is new, and then whether the bank is full, decides between the three outcomes. -/
theorem regaddAppendsAContext : Obligations.RegaddAppendsAContext := by
  refine ⟨fun r hop => decode_of_opcode (o := .regadd) (by rw [hop]; rfl), fun s reg raddr mode => ⟨?_, ?_, ?_⟩⟩
  · exact fun hknown => exec_regadd_of_known raddr mode ((s.isSome_findReg_iff reg).2 hknown)
  · exact fun hnew hfull =>
      exec_regadd_of_full raddr mode ((s.findReg_none_iff reg).2 hnew) ((atCapacity_eq_true_iff _ _).2 hfull)
  · exact fun hnew hroom =>
      exec_regadd_of_room raddr mode ((s.findReg_none_iff reg).2 hnew) ((atCapacity_eq_false_iff _ _).2 hroom)

/-- Settles O17: the tests in the order SEGADD makes them, each outcome reached with the earlier tests passed. -/
theorem segaddAppendsASegment : Obligations.SegaddAppendsASegment := by
  intro s reg seg lsb msb before c after hbank hbefore hname
  have hc : s.findReg reg = some c := State.findReg_of_bank hbank hbefore hname
  refine ⟨fun hlt => exec_segadd_of_reversed hc hlt,
    fun hle hknown => exec_segadd_of_known hc hle ((c.isSome_findSeg_iff seg).2 hknown), fun hle hnew => ?_⟩
  have hnone : c.findSeg seg = none := (c.findSeg_none_iff seg).2 hnew
  refine ⟨fun hmax => ?_, fun hmax hfull => ?_, fun hmax hroom => ?_⟩
  · exact exec_segadd_of_beyond hc hle hnone ((beyondBits_eq_true_iff _ _).2 hmax)
  · exact exec_segadd_of_full hc hle hnone ((beyondBits_eq_false_iff _ _).2 hmax)
      ((atCapacity_eq_true_iff _ _).2 hfull)
  · rw [← State.addSeg_eq hbank hbefore hname]
    exact exec_segadd_of_room hc hle hnone ((beyondBits_eq_false_iff _ _).2 hmax)
      ((atCapacity_eq_false_iff _ _).2 hroom)

/-- Settles O18: the context is the one the lookup finds, in the slot after those before it. -/
theorem reggetAnswersTheDescriptor : Obligations.ReggetAnswersTheDescriptor := by
  intro s reg before c after hbank hbefore hname
  rw [exec_regget_of_found (State.findReg_of_bank hbank hbefore hname), State.regSlot_of_bank hbank hbefore hname]

/-- Settles O19: as O18, with the segment looked up in the register's own table. -/
theorem seggetAnswersTheSegment : Obligations.SeggetAnswersTheSegment := by
  intro s reg seg before c after front S back hbank hbefore hname hsegs hfront hseg
  rw [exec_segget_of_found (State.findReg_of_bank hbank hbefore hname) (RegCtx.findSeg_of_segs hsegs hfront hseg),
    RegCtx.segSlot_of_segs hsegs hfront hseg]

/-- Settles O20: the total is the sum of the widths by definition, and a byte count is its ceiling by 8. -/
theorem totalsAnswerTheSumOfWidths : Obligations.TotalsAnswerTheSumOfWidths := by
  intro s reg before c after hbank hbefore hname
  have hc : s.findReg reg = some c := State.findReg_of_bank hbank hbefore hname
  exact ⟨exec_totbits_of_found hc, exec_totbytes_of_found hc⟩

/-! ### The width of a partitioned register (R84, R105) -/

/-- A segment adds one owner to each bit of its window, and none to any other. -/
theorem length_owners_cons (S : Segment) (rest : List Segment) (g : Nat) :
    (owners (S :: rest) g).length = (if S.lsb ≤ g ∧ g ≤ S.msb then 1 else 0) + (owners rest g).length := by
  simp only [length_owners, ← List.countP_eq_length_filter, List.countP_cons, decide_eq_true_eq, add_comm]

/-- A window within `[0..M]` holds as many of those bits as it is wide. -/
theorem Segment.sum_owned_eq_width {S : Segment} {M : Nat} (hle : S.lsb ≤ S.msb) (hM : S.msb ≤ M) :
    ∑ g ∈ Finset.range (M + 1), (if S.lsb ≤ g ∧ g ≤ S.msb then 1 else 0) = S.width := by
  have hwindow : (Finset.range (M + 1)).filter (fun g => S.lsb ≤ g ∧ g ≤ S.msb) = Finset.Icc S.lsb S.msb := by
    ext g
    simp only [Finset.mem_filter, Finset.mem_range, Finset.mem_Icc]
    omega
  rw [← Finset.card_filter, hwindow, Nat.card_Icc, Segment.width]
  omega

/-- Counted bit by bit or segment by segment, the windows within `[0..M]` hold the same number of bits. -/
theorem sum_length_owners_eq_totalBits {segs : List Segment} {M : Nat} (hle : ∀ S ∈ segs, S.lsb ≤ S.msb)
    (hM : ∀ S ∈ segs, S.msb ≤ M) : ∑ g ∈ Finset.range (M + 1), (owners segs g).length = totalBits segs := by
  induction segs with
  | nil => simp [owners, totalBits]
  | cons S rest ih =>
    obtain ⟨hS, hrest⟩ := List.forall_mem_cons.1 hle
    obtain ⟨hSM, hrestM⟩ := List.forall_mem_cons.1 hM
    simp only [length_owners_cons, Finset.sum_add_distrib, Segment.sum_owned_eq_width hS hSM, ih hrest hrestM]
    simp [totalBits]

/-- In a partition of `[0..M]` each bit is counted once. -/
theorem totalBits_of_partitions {segs : List Segment} {M : Nat} (hle : ∀ S ∈ segs, S.lsb ≤ S.msb)
    (hM : IsMaxBit segs M) (hpart : Partitions segs M) : totalBits segs = M + 1 := by
  obtain ⟨hmax, -⟩ := hM
  have hone : ∀ g ∈ Finset.range (M + 1), (owners segs g).length = 1 := fun g hg => by
    rw [length_owners, hpart g (Nat.lt_succ_iff.1 (Finset.mem_range.1 hg))]
  calc totalBits segs = ∑ g ∈ Finset.range (M + 1), (owners segs g).length :=
        (sum_length_owners_eq_totalBits hle hmax).symm
    _ = ∑ _g ∈ Finset.range (M + 1), 1 := Finset.sum_congr rfl hone
    _ = M + 1 := by simp

/-- A WRITE sends the bytes that hold bits `[0..maxBit]` (R103). -/
theorem length_pack (segs : List Segment) : (pack segs).length = bytesNeeded (maxBit segs) := by
  rw [pack, length_toPaddedByteArr, length_assemble, bytesNeeded]

/-- Settles O31: the widths sum to the register's, and the bytes for that are the bytes up to its highest bit. -/
theorem partitionWidthsSumToTheRegister : Obligations.PartitionWidthsSumToTheRegister := by
  intro segs M hle hM hpart
  have hbits : totalBits segs = M + 1 := totalBits_of_partitions hle hM hpart
  refine ⟨hbits, ?_, ?_⟩
  · rw [totalBytes, hbits, ← bytesNeeded, bytesNeeded_eq]
  · rw [length_pack, maxBit_eq hM, bytesNeeded_eq]

end Sys2Proof.Machine
end

section
/-! ## The segment data commands: storing a segment's vector and decoding it (spec/42_segment_data.md R90 to R94) -/

namespace Sys2Proof.Machine

/-! ### The values of a vector and of a byte's bit -/

/-- The signed value as a sum: the unsigned one, less `2^len` when the highest bit is set (R72). -/
theorem toTwosCompInt_eq_sum (b : Bits) :
    toTwosCompInt b =
      (∑ i ∈ Finset.range b.length, ((b.getD i false).toNat : Int) * 2 ^ i) -
        (if b.getLast? = some true then 2 ^ b.length else 0) := by
  have hsum : (toInt b : Int) = ∑ i ∈ Finset.range b.length, ((b.getD i false).toNat : Int) * 2 ^ i := by
    rw [toInt_eq_sum le_rfl]
    push_cast
    rfl
  rw [toTwosCompInt, ← hsum]
  split
  · rfl
  · rw [sub_zero]

/-- Global bit `g` by division: byte `g div 8`, and of it the bit of weight `2^(g mod 8)` (R34). -/
theorem byteBit_eq_decide_div_mod (y : List Byte) (g : Nat) :
    byteBit y g = decide ((y.getD (g / 8) 0#8).toNat / 2 ^ (g % 8) % 2 = 1) :=
  Nat.testBit_eq_decide_div_mod_eq

/-! ### The lookup and the update of a segment -/

theorem State.withSeg_some {s : State} {reg seg : Name} {c : RegCtx} {S : Segment} (hc : s.findReg reg = some c)
    (hS : c.findSeg seg = some S) (k : RegCtx → Segment → Result) : s.withSeg reg seg k = k c S := by
  simp only [State.withSeg, State.withReg_some s reg _ c hc, hS]

/-- Storing bits in the segment that the lookups find writes that segment of that register, and nothing else. -/
theorem State.storeBits_eq {s : State} {reg seg : Name} {before : List RegCtx} {c : RegCtx} {after : List RegCtx}
    {front : List Segment} {S : Segment} {back : List Segment} (hb : s.bank = before ++ c :: after)
    (hn : ∀ d ∈ before, d.name ≠ reg) (hc : c.name = reg) (hs : c.segs = front ++ S :: back)
    (hf : ∀ T ∈ front, T.name ≠ seg) (hS : S.name = seg) (v : Bits) :
    s.storeBits reg seg v =
      { s with bank := before ++ { c with segs := front ++ { S with bits := v } :: back } :: after } := by
  have htable : modifyFirst (fun T => T.name == seg) (fun T : Segment => { T with bits := v }) c.segs =
      front ++ { S with bits := v } :: back := by
    rw [hs]
    exact modifyFirst_append (by simpa using hf) (by simpa using hS)
  rw [State.storeBits, State.updateSegs_eq hb hn hc, htable]

/-! ### The commands on a segment that exists, outcome by outcome -/

section SegmentData

variable {s : State} {reg seg : Name} {c : RegCtx} {S : Segment} (hc : s.findReg reg = some c)
  (hS : c.findSeg seg = some S)
include hc hS

theorem exec_setbits_of_mismatch {vec : List Nat} (hlen : vec.length ≠ S.width) :
    exec (.setbits reg seg vec) s = failed s .lengthMismatch (.pair S.width vec.length) := by
  simp [exec, execSetbits, State.withSeg_some hc hS, hlen, State.raise_eq_failed]

theorem exec_setbits_of_firstBad {vec : List Nat} {i : Nat} (hlen : vec.length = S.width)
    (hbad : firstBad vec = some i) :
    exec (.setbits reg seg vec) s = failed s .invalidBitValue (.index i) := by
  simp [exec, execSetbits, State.withSeg_some hc hS, hlen, hbad, State.raise_eq_failed]

theorem exec_setbits_of_bits {vec : List Nat} (hlen : vec.length = S.width) (hbits : firstBad vec = none) :
    exec (.setbits reg seg vec) s = succeeded (s.storeBits reg seg (bitsOf vec)) id := by
  simp [exec, execSetbits, State.withSeg_some hc hS, hlen, hbits, State.respondOk_eq_succeeded]

theorem exec_segupd_of_exceeds {y : List Byte} (hcap : exceeds s.params.maxBytes y.length = true) :
    exec (.segupd reg seg y) s = failed s .capacityExceeded (.capacity .bytes) := by
  simp [exec, execSegupd, State.withSeg_some hc hS, hcap, State.raise_eq_failed]

theorem exec_segupd_of_uncovered {y : List Byte} (hcap : exceeds s.params.maxBytes y.length = false)
    (hcov : covers S.msb y = false) :
    exec (.segupd reg seg y) s =
      failed s .insufficientData (.insufficient seg (bytesNeeded S.msb) y.length) := by
  simp [exec, execSegupd, State.withSeg_some hc hS, hcap, hcov, State.raise_eq_failed]

theorem exec_segupd_of_covered {y : List Byte} (hcap : exceeds s.params.maxBytes y.length = false)
    (hcov : covers S.msb y = true) :
    exec (.segupd reg seg y) s = succeeded (s.storeBits reg seg (extract S.lsb S.msb y)) id := by
  simp [exec, execSegupd, State.withSeg_some hc hS, hcap, hcov, State.respondOk_eq_succeeded]

theorem exec_segint_of_found :
    exec (.segint reg seg) s = succeeded s fun f => { f with uval := toInt S.bits } :=
  State.withSeg_some hc hS _

theorem exec_segtc_of_found :
    exec (.segtc reg seg) s = succeeded s fun f => { f with sval := toTwosCompInt S.bits } :=
  State.withSeg_some hc hS _

end SegmentData

/-! ### What they answer -/

/-- Settles O22: the length is tested, then the elements; a vector that passes both is stored in the one segment the
lookups find. -/
theorem setbitsReplacesTheVector : Obligations.SetbitsReplacesTheVector := by
  intro s reg seg vec before c after front S back hbank hbefore hname hsegs hfront hseg
  have hc : s.findReg reg = some c := State.findReg_of_bank hbank hbefore hname
  have hS : c.findSeg seg = some S := RegCtx.findSeg_of_segs hsegs hfront hseg
  refine ⟨fun hlen => exec_setbits_of_mismatch hc hS hlen, fun hlen head e tail hvec hhead he => ?_,
    fun hlen hbits => ?_⟩
  · have hbad : firstBad vec = some head.length := hvec ▸ firstBad_append hhead he
    exact exec_setbits_of_firstBad hc hS hlen hbad
  · rw [exec_setbits_of_bits hc hS hlen ((firstBad_none_iff vec).2 hbits),
      State.storeBits_eq hbank hbefore hname hsegs hfront hseg, bitsOf]

/-- Settles O23: the byte count is tested against the capacity, then against the window; bytes that pass both give the
window that `extract` takes. -/
theorem segupdStoresTheWindow : Obligations.SegupdStoresTheWindow := by
  intro s reg seg y before c after front S back hbank hbefore hname hsegs hfront hseg
  have hc : s.findReg reg = some c := State.findReg_of_bank hbank hbefore hname
  have hS : c.findSeg seg = some S := RegCtx.findSeg_of_segs hsegs hfront hseg
  refine ⟨fun hcap => ?_, fun hcap hshort => ?_,
    fun hcap hcov => ⟨extract S.lsb S.msb y, length_extract .., fun i hi => ?_, ?_⟩⟩
  · exact exec_segupd_of_exceeds hc hS ((exceeds_eq_true_iff _ _).2 hcap)
  · rw [← bytesNeeded_eq]
    exact exec_segupd_of_uncovered hc hS ((exceeds_eq_false_iff _ _).2 hcap) ((covers_eq_false_iff _ _).2 hshort)
  · rw [extract_getElem? y (by rwa [length_extract] at hi), byteBit_eq_decide_div_mod]
  · rw [exec_segupd_of_covered hc hS ((exceeds_eq_false_iff _ _).2 hcap) ((covers_iff _ _).2 hcov),
      State.storeBits_eq hbank hbefore hname hsegs hfront hseg]

/-- Settles O24: the commands decode the vector the lookups find, whose two values are the sums. -/
theorem segintAndSegtcDecodeTheVector : Obligations.SegintAndSegtcDecodeTheVector := by
  intro s reg seg before c after front S back hbank hbefore hname hsegs hfront hseg
  have hc : s.findReg reg = some c := State.findReg_of_bank hbank hbefore hname
  have hS : c.findSeg seg = some S := RegCtx.findSeg_of_segs hsegs hfront hseg
  rw [← toInt_eq_sum le_rfl, ← toTwosCompInt_eq_sum]
  exact ⟨exec_segint_of_found hc hS, exec_segtc_of_found hc hS⟩

end Sys2Proof.Machine
end

section
/-! ## READ and WRITE: the checks, the one transport call, and what the answer stores (spec/43_transfer.md R100 to
R106) -/

namespace Sys2Proof.Machine

/-! ### The request and its answer together (R38, R46) -/

/-- Before a transport that is ready and has answered, offering a request makes the one call and ends the transfer. -/
theorem State.offerRequest_of_answer {s : State} {x : Transfer} {a : TransportAnswer} {rest : List TransportAnswer}
    (hready : s.treqReady = true) (ha : s.answers.drop s.stale = a :: rest) :
    s.offerRequest x =
      ({ s with calls := s.calls ++ [x.request], answers := rest, stale := 0 } : State).finishTransfer x a := by
  rw [State.offerRequest_of_ready hready]
  exact State.awaitAnswer_of_answer ha

/-! ### READ, outcome by outcome (R100) -/

section Read

variable {s : State} {reg : Name} {c : RegCtx} (hc : s.findReg reg = some c)
include hc

theorem exec_read_of_denied (hmode : c.mode.readable = false) :
    exec (.read reg) s = failed s .accessDenied .empty := by
  simp [exec, execRead, State.withReg_some s reg _ c hc, RegCtx.mayRead, hmode, State.raise_eq_failed]

theorem exec_read_of_exceeds (hmode : c.mode.readable = true)
    (hmax : exceeds s.params.maxBytes (totalBytes c.segs) = true) :
    exec (.read reg) s = failed s .capacityExceeded (.capacity .bytes) := by
  simp [exec, execRead, State.withReg_some s reg _ c hc, RegCtx.mayRead, hmode, hmax, State.raise_eq_failed]

/-- A READ that passes its checks makes its call and does with the answer what the end of a transfer does. -/
theorem exec_read_of_answer (hmode : c.mode.readable = true)
    (hmax : exceeds s.params.maxBytes (totalBytes c.segs) = false) (hready : s.treqReady = true)
    {a : TransportAnswer} {rest : List TransportAnswer} (ha : s.answers.drop s.stale = a :: rest) :
    exec (.read reg) s =
      ({ s with
          calls := s.calls ++ [.readBytes s.devAddr c.raddr (totalBytes c.segs)]
          answers := rest
          stale := 0 } : State).finishTransfer
        { reg := reg, request := .readBytes s.devAddr c.raddr (totalBytes c.segs) } a := by
  rw [exec_read_of_checks hc hmode hmax, State.offerRequest_of_answer hready ha]

end Read

/-- A READ answered with bytes that cover every window stores them all. -/
theorem exec_read_of_covered {s : State} {reg : Name} {before : List RegCtx} {c : RegCtx} {after : List RegCtx}
    {a : TransportAnswer} {rest : List TransportAnswer} (hbank : s.bank = before ++ c :: after)
    (hbefore : ∀ d ∈ before, d.name ≠ reg) (hname : c.name = reg) (hmode : c.mode.readable = true)
    (hmax : exceeds s.params.maxBytes (totalBytes c.segs) = false) (hready : s.treqReady = true)
    (ha : s.answers.drop s.stale = a :: rest) (hstatus : a.status s.params = 0)
    (hcov : ∀ S ∈ c.segs, covers S.msb a.rbytes = true) :
    exec (.read reg) s =
      succeeded
        { s with
          bank := before ++
            { c with segs := c.segs.map fun S => { S with bits := extract S.lsb S.msb a.rbytes } } :: after
          calls := s.calls ++ [.readBytes s.devAddr c.raddr (totalBytes c.segs)]
          answers := rest
          stale := 0 } id := by
  rw [exec_read_of_answer (State.findReg_of_bank hbank hbefore hname) hmode hmax hready ha]
  exact State.finishTransfer_of_read_covered hstatus ⟨_, _, _, rfl⟩ hbank hbefore hname hcov

/-! ### WRITE, outcome by outcome (R101) -/

/-- A register with a highest bit has a segment, so WRITE does not find it empty. -/
theorem ne_nil_of_isMaxBit {segs : List Segment} {M : Nat} (h : IsMaxBit segs M) : segs ≠ [] := by
  obtain ⟨-, S, hS, -⟩ := h
  exact List.ne_nil_of_mem hS

section Write

variable {s : State} {reg : Name} {c : RegCtx} (hc : s.findReg reg = some c)
include hc

theorem exec_write_of_denied (hmode : c.mode.writable = false) :
    exec (.write reg) s = failed s .accessDenied .empty := by
  simp [exec, execWrite, State.withReg_some s reg _ c hc, RegCtx.mayWrite, hmode, State.raise_eq_failed]

theorem exec_write_of_empty (hmode : c.mode.writable = true) (hempty : c.segs = []) :
    exec (.write reg) s = failed s .emptyRegister .empty := by
  simp [exec, execWrite, State.withReg_some s reg _ c hc, RegCtx.mayWrite, hmode, hempty, State.raise_eq_failed]

theorem exec_write_of_layoutError (hmode : c.mode.writable = true) (hne : c.segs ≠ []) {e : Status} {d : Detail}
    (hlayout : layoutError c.segs = some (e, d)) : exec (.write reg) s = failed s e d := by
  simp [exec, execWrite, State.withReg_some s reg _ c hc, RegCtx.mayWrite, hmode, hne, hlayout,
    State.raise_eq_failed]

/-- A WRITE of a partitioned register makes its call and does with the answer what the end of a transfer does. -/
theorem exec_write_of_answer (hmode : c.mode.writable = true) {M : Nat} (hM : IsMaxBit c.segs M)
    (hpart : Partitions c.segs M) (hready : s.treqReady = true) {a : TransportAnswer} {rest : List TransportAnswer}
    (ha : s.answers.drop s.stale = a :: rest) :
    exec (.write reg) s =
      ({ s with
          calls := s.calls ++ [.writeBytes s.devAddr c.raddr (pack c.segs)]
          answers := rest
          stale := 0 } : State).finishTransfer
        { reg := reg, request := .writeBytes s.devAddr c.raddr (pack c.segs) } a := by
  rw [exec_write_of_checks hc hmode (ne_nil_of_isMaxBit hM) ((layoutError_eq_none_iff_partitions hM).2 hpart),
    State.offerRequest_of_answer hready ha]

end Write

/-! ### The checker's lists (R102) -/

theorem pairwise_gaps (segs : List Segment) : (gaps segs).Pairwise (· < ·) :=
  List.pairwise_lt_range.filter _

theorem mem_gaps_iff {segs : List Segment} {M : Nat} (hM : IsMaxBit segs M) (g : Nat) :
    g ∈ gaps segs ↔ g ≤ M ∧ ∀ S ∈ segs, ¬(S.lsb ≤ g ∧ g ≤ S.msb) := by
  simp [gaps, owners, Segment.owns, maxBit_eq hM]

theorem map_fst_conflicts (segs : List Segment) :
    (conflicts segs).map Prod.fst =
      (List.range (maxBit segs + 1)).filter fun g => decide (2 ≤ (owners segs g).length) := by
  simp [conflicts, Function.comp_def]

theorem pairwise_conflicts (segs : List Segment) : ((conflicts segs).map Prod.fst).Pairwise (· < ·) := by
  rw [map_fst_conflicts]
  exact List.pairwise_lt_range.filter _

theorem mem_conflicts_iff {segs : List Segment} {M : Nat} (hM : IsMaxBit segs M) (g : Nat) (names : List Name) :
    (g, names) ∈ conflicts segs ↔ g ≤ M ∧ 2 ≤ names.length ∧ names = owners segs g := by
  simp only [conflicts, maxBit_eq hM, List.mem_map, List.mem_filter, List.mem_range, Nat.lt_succ_iff,
    decide_eq_true_eq, Prod.mk.injEq]
  constructor
  · rintro ⟨_, ⟨hg, hlen⟩, rfl, rfl⟩
    exact ⟨hg, hlen, rfl⟩
  · rintro ⟨hg, hlen, rfl⟩
    exact ⟨g, ⟨hg, hlen⟩, rfl, rfl⟩

/-- A bit without an owner is reported before any bit with several (R102, step 4). -/
theorem layoutError_of_gap {segs : List Segment} {g : Nat} (hg : g ∈ gaps segs) :
    layoutError segs = some (.continuityError, .gaps (gaps segs)) :=
  if_pos (List.ne_nil_of_mem hg)

/-- Without a gap, a layout that is no partition is refused for its conflicts (R102, step 5). -/
theorem layoutError_of_overlap {segs : List Segment} {M : Nat} (hM : IsMaxBit segs M) (hgaps : gaps segs = [])
    (hpart : ¬ Partitions segs M) : layoutError segs = some (.overlapError, .conflicts (conflicts segs)) := by
  have hconf : conflicts segs ≠ [] := fun hconf =>
    hpart ((layoutError_eq_none_iff_partitions hM).1 (by simp [layoutError, hgaps, hconf]))
  simp [layoutError, hgaps, hconf]

/-! ### The packed bytes (R103) -/

/-- Global bit `g` of a padded byte array is element `g` of the vector, or 0 beyond its end (R34, R35). -/
theorem byteBit_toPaddedByteArr (b : Bits) (g : Nat) : byteBit (toPaddedByteArr b) g = b.getD g false := by
  have hg : 8 * (g / 8) + g % 8 = g := Nat.div_add_mod g 8
  by_cases h : g / 8 < (toPaddedByteArr b).length
  · rw [byteBit, toPaddedByteArr_getD h, groupByte_getLsbD b _ _ (Nat.mod_lt g (by decide)), hg]
  · have hle := (numBytesForBits_bounds b.length).1
    rw [length_toPaddedByteArr] at h
    have hlen : b.length ≤ g := by omega
    simp [byteBit, List.getD_eq_getElem?_getD, h, hlen]

/-- A bit above `maxBit` has no owner, and is 0 in the assembled value. -/
theorem assembledBit_of_maxBit_lt {segs : List Segment} {g : Nat} (h : maxBit segs < g) :
    assembledBit segs g = false := by
  have hnone : segs.find? (fun S => S.owns g) = none := by
    refine List.find?_eq_none.2 fun S hS => ?_
    have := msb_le_maxBit hS
    simp only [Segment.owns, decide_eq_true_eq]
    omega
  simp only [assembledBit, hnone]

/-- Global bit `g` of the packed bytes is that of the assembled value, also above `maxBit`, where both are 0. -/
theorem byteBit_pack (segs : List Segment) (g : Nat) : byteBit (pack segs) g = assembledBit segs g := by
  rw [pack, byteBit_toPaddedByteArr, assemble]
  rcases le_or_gt g (maxBit segs) with h | h
  · simp [List.getD_eq_getElem?_getD, Nat.lt_succ_of_le h]
  · rw [assembledBit_of_maxBit_lt h, List.getD_eq_default _ _ (by simpa using h)]

/-- In a partition, the bits of a window are those its segment stores: the owner that `assemble` finds is the only
one. -/
theorem assembledBit_of_partitions {segs : List Segment} {M : Nat} (hmax : ∀ T ∈ segs, T.msb ≤ M)
    (hpart : Partitions segs M) {S : Segment} (hS : S ∈ segs) {g : Nat} (hlo : S.lsb ≤ g) (hhi : g ≤ S.msb) :
    assembledBit segs g = S.bits.getD (g - S.lsb) false := by
  obtain ⟨T, hT⟩ := List.length_eq_one_iff.1 (hpart g (hhi.trans (hmax S hS)))
  have honly : ∀ U ∈ segs, U.owns g = true → U = T := fun U hU hown =>
    List.mem_singleton.1 (hT ▸ List.mem_filter.2 ⟨hU, hown⟩)
  have hown : S.owns g = true := decide_eq_true ⟨hlo, hhi⟩
  obtain ⟨U, hfind⟩ : ∃ U, segs.find? (fun S => S.owns g) = some U :=
    Option.isSome_iff_exists.1 (List.find?_isSome.2 ⟨S, hS, hown⟩)
  have hownU : U.owns g = true := List.find?_some (p := fun S : Segment => S.owns g) hfind
  have hUS : U = S :=
    (honly U (List.mem_of_find?_eq_some hfind) hownU).trans (honly S hS hown).symm
  simp only [assembledBit, hfind, hUS]

/-- The packed bytes of a partition hold the bit `i` of every segment at global bit `lsb + i`. -/
theorem byteBit_pack_of_partitions {segs : List Segment} {M : Nat} (hM : IsMaxBit segs M)
    (hpart : Partitions segs M) {S : Segment} (hS : S ∈ segs) (hle : S.lsb ≤ S.msb) {i : Nat}
    (hi : i < S.msb - S.lsb + 1) : byteBit (pack segs) (S.lsb + i) = S.bits.getD i false := by
  obtain ⟨hmax, -⟩ := hM
  rw [byteBit_pack, assembledBit_of_partitions hmax hpart hS (Nat.le_add_right ..) (by omega),
    Nat.add_sub_cancel_left]

/-- The window of every segment in the packed bytes of a partition is its stored vector (R106). -/
theorem extract_pack {segs : List Segment} {M : Nat} (hM : IsMaxBit segs M) (hpart : Partitions segs M)
    {S : Segment} (hS : S ∈ segs) (hle : S.lsb ≤ S.msb) (hlen : S.bits.length = S.msb - S.lsb + 1) :
    extract S.lsb S.msb (pack segs) = S.bits := by
  refine List.ext_getElem (by rw [length_extract, hlen]) fun i _ hi => ?_
  rw [List.getElem_eq_iff, extract_getElem? _ (hlen ▸ hi), byteBit_pack_of_partitions hM hpart hS hle (hlen ▸ hi)]
  simp [hi]

theorem length_pack_of_isMaxBit {segs : List Segment} {M : Nat} (hM : IsMaxBit segs M) :
    (pack segs).length = M / 8 + 1 := by
  rw [length_pack, maxBit_eq hM, bytesNeeded_eq]

/-- The packed bytes cover every window. -/
theorem covers_pack {segs : List Segment} {S : Segment} (hS : S ∈ segs) : covers S.msb (pack segs) = true := by
  have := msb_le_maxBit hS
  rw [covers_iff, length_pack, bytesNeeded_eq]
  omega

/-! ### The byte capacity of a legal block (R4) -/

/-- `MAX_BYTES` holds the bytes of any bit position below `MAX_BITS`. -/
theorem exceeds_maxBytes_of_wf {p : Params} (hp : p.wf = true) {M : Nat} (hM : beyondBits p.maxBits M = false) :
    exceeds p.maxBytes (M / 8 + 1) = false := by
  simp only [Params.wf, Bool.and_eq_true] at hp
  obtain ⟨⟨-, hbytes⟩, -⟩ := hp
  rw [beyondBits_eq_false_iff] at hM
  rw [exceeds_eq_false_iff]
  intro m hm
  cases hb : p.maxBits with
  | none => simp [Params.atMost, hb, hm] at hbytes
  | some b =>
    have hlt := hM b hb
    simp only [Params.atMost, hb, hm, Option.map_some, decide_eq_true_eq] at hbytes
    omega

/-- A READ of a legal register that partitions its bits passes the byte capacity. -/
theorem totalBytes_eq_and_within_maxBytes {p : Params} (hp : p.wf = true) {segs : List Segment} {M : Nat}
    (hsegs : ∀ S ∈ segs, S.Legal p) (hM : IsMaxBit segs M) (hpart : Partitions segs M) :
    totalBytes segs = M / 8 + 1 ∧ exceeds p.maxBytes (totalBytes segs) = false := by
  obtain ⟨-, htotal, -⟩ := partitionWidthsSumToTheRegister segs M (fun S hS => (hsegs S hS).1) hM hpart
  obtain ⟨-, S, hS, rfl⟩ := hM
  obtain ⟨-, -, hbeyond, -⟩ := hsegs S hS
  exact ⟨htotal, htotal ▸ exceeds_maxBytes_of_wf hp hbeyond⟩

/-! ### A READ of what a WRITE sent (R106) -/

/-- The word 0 is success at any width of the status. -/
theorem TransportAnswer.status_zero (p : Params) (y : List Byte) :
    TransportAnswer.status p { tstatus := 0, rbytes := y } = 0 := by
  cases h : p.tstatW <;> simp [TransportAnswer.status, cutTo, h]

/-- A READ answered with the packed bytes of its register, a partition, stores what every segment holds. -/
theorem exec_read_of_pack {s : State} {reg : Name} {c : RegCtx} {M : Nat} {rest : List TransportAnswer}
    (hc : s.findReg reg = some c) (hmode : c.mode.readable = true)
    (hmax : exceeds s.params.maxBytes (totalBytes c.segs) = false)
    (hsegs : ∀ S ∈ c.segs, S.lsb ≤ S.msb ∧ S.bits.length = S.msb - S.lsb + 1) (hM : IsMaxBit c.segs M)
    (hpart : Partitions c.segs M) (hready : s.treqReady = true)
    (ha : s.answers.drop s.stale = { tstatus := 0, rbytes := pack c.segs } :: rest) :
    exec (.read reg) s =
      succeeded
        { s with
          calls := s.calls ++ [.readBytes s.devAddr c.raddr (totalBytes c.segs)]
          answers := rest
          stale := 0 } id := by
  obtain ⟨hname, before, after, hbank, hbefore⟩ := (s.findReg_some_iff reg c).1 hc
  have hsame : (c.segs.map fun S => { S with bits := extract S.lsb S.msb (pack c.segs) }) = c.segs := by
    refine (List.map_congr_left fun S hS => ?_).trans (List.map_id _)
    obtain ⟨hle, hlen⟩ := hsegs S hS
    rw [extract_pack hM hpart hS hle hlen, id]
  rw [exec_read_of_covered hbank hbefore hname hmode hmax hready ha (TransportAnswer.status_zero _ _)
    fun S hS => covers_pack hS]
  simp only [hsame, ← hbank]

/-! ### What READ and WRITE do -/

/-- Settles O30: the checker returns when every bit up to `maxBit` has exactly one owner, and `maxBit` is `M`. -/
theorem checkerPassesExactlyThePartitions : Obligations.CheckerPassesExactlyThePartitions :=
  fun _ _ hM => layoutError_eq_none_iff_partitions hM

/-- Settles O25: the checks pass, the call is made, and bytes that cover every window are all stored. -/
theorem readUnpacksEverySegment : Obligations.ReadUnpacksEverySegment := by
  rintro s reg before c after n a rest hbank hbefore hname hmode rfl hmax hready ha hstatus hcov
  exact exec_read_of_covered hbank hbefore hname hmode ((exceeds_eq_false_iff _ _).2 hmax) hready ha hstatus
    fun S hS => (covers_iff _ _).2 (hcov S hS)

/-- Settles O26: as O25, with bytes that leave a window uncovered. -/
theorem readStopsAtTheFirstUncoveredSegment : Obligations.ReadStopsAtTheFirstUncoveredSegment := by
  rintro s reg before c after front S back n a rest hbank hbefore hname hmode rfl hmax hready ha hstatus hsegs hfront
    hS
  rw [exec_read_of_answer (State.findReg_of_bank hbank hbefore hname) hmode ((exceeds_eq_false_iff _ _).2 hmax)
    hready ha]
  exact State.finishTransfer_of_read_uncovered hstatus ⟨_, _, _, rfl⟩ hbank hbefore hname hsegs
    (fun T hT => (covers_iff _ _).2 (hfront T hT)) ((covers_eq_false_iff _ _).2 hS)

/-- Settles O27: two errors end the command before its call, the third takes the answer to it. -/
theorem readErrorsChangeNoSegment : Obligations.ReadErrorsChangeNoSegment := by
  rintro s reg before c after n hbank hbefore hname rfl
  have hc : s.findReg reg = some c := State.findReg_of_bank hbank hbefore hname
  refine ⟨exec_read_of_denied hc, fun hmode hmax => ?_, fun hmode hmax hready a rest ha hstatus => ?_⟩
  · exact exec_read_of_exceeds hc hmode ((exceeds_eq_true_iff _ _).2 hmax)
  · rw [exec_read_of_answer hc hmode ((exceeds_eq_false_iff _ _).2 hmax) hready ha]
    exact State.finishTransfer_of_error hstatus

/-- Settles O28: the bytes are those of `pack`, and the answer's status decides between the two outcomes. -/
theorem writeSendsThePackedSegments : Obligations.WriteSendsThePackedSegments := by
  intro s reg before c after M a rest hbank hbefore hname hmode hsegs hM hpart hready ha
  have hc : s.findReg reg = some c := State.findReg_of_bank hbank hbefore hname
  rw [exec_write_of_answer hc hmode hM hpart hready ha]
  refine ⟨pack c.segs, length_pack_of_isMaxBit hM, fun S hS i hi => ?_, fun g hg => ?_, fun hstatus => ?_,
    fun hstatus => ?_⟩
  · obtain ⟨hle, hlen⟩ := hsegs S hS
    exact byteBit_pack_of_partitions hM hpart hS hle (hlen ▸ hi)
  · exact (byteBit_pack c.segs g).trans (assembledBit_of_maxBit_lt (maxBit_eq hM ▸ hg))
  · exact State.finishTransfer_of_write hstatus ⟨_, _, _, rfl⟩
  · exact State.finishTransfer_of_error hstatus

/-- Settles O29: the tests in the order WRITE makes them; the lists are those of the checker. -/
theorem writeRefusesBadLayouts : Obligations.WriteRefusesBadLayouts := by
  intro s reg before c after M hbank hbefore hname
  have hc : s.findReg reg = some c := State.findReg_of_bank hbank hbefore hname
  refine ⟨exec_write_of_denied hc, exec_write_of_empty hc, fun hmode hM ⟨g, hg⟩ => ?_,
    fun hmode hM howned hpart => ?_⟩
  · exact ⟨gaps c.segs, pairwise_gaps _, mem_gaps_iff hM,
      exec_write_of_layoutError hc hmode (ne_nil_of_isMaxBit hM) (layoutError_of_gap ((mem_gaps_iff hM g).2 hg))⟩
  · have hgaps : gaps c.segs = [] := List.eq_nil_iff_forall_not_mem.2 fun g hg => by
      obtain ⟨hgM, hunowned⟩ := (mem_gaps_iff hM g).1 hg
      obtain ⟨S, hS, hown⟩ := howned g hgM
      exact hunowned S hS hown
    exact ⟨conflicts c.segs, pairwise_conflicts _, mem_conflicts_iff hM,
      exec_write_of_layoutError hc hmode (ne_nil_of_isMaxBit hM) (layoutError_of_overlap hM hgaps hpart)⟩

/-- Settles O32: the WRITE sends `pack`, and the READ stores each segment's window of it, which is what the segment
holds. -/
theorem writeThenReadRoundTrips : Obligations.WriteThenReadRoundTrips := by
  intro s reg c M y a rest hs hc hread hwrite hM hpart hready ha hstatus
  obtain ⟨hparams, ⟨-, -, hregs⟩, -⟩ := hs
  obtain ⟨-, -, hsegs, -⟩ := hregs c (List.mem_of_find?_eq_some hc)
  obtain ⟨htotal, hmax⟩ := totalBytes_eq_and_within_maxBytes hparams hsegs hM hpart
  have hshape : ∀ S ∈ c.segs, S.lsb ≤ S.msb ∧ S.bits.length = S.msb - S.lsb + 1 := fun S hS => by
    obtain ⟨hle, hlen, -⟩ := hsegs S hS
    exact ⟨hle, hlen⟩
  have hsent := (exec_write_of_answer hc hwrite hM hpart hready ha).trans
    (State.finishTransfer_of_write hstatus ⟨_, _, _, rfl⟩)
  refine ⟨fun S hS => ?_, _, pack c.segs, hsent, rfl, rfl, ?_⟩
  · obtain ⟨hle, hlen⟩ := hshape S hS
    exact extract_pack hM hpart hS hle hlen
  · rintro rfl
    rw [length_pack_of_isMaxBit hM, ← htotal]
    exact ⟨_, exec_read_of_pack hc hread hmax hshape hM hpart hready rfl, rfl, rfl, rfl⟩

end Sys2Proof.Machine
end

section
/-! ## The host's sequences: a command issued, and what BANK.ADD, the accessors, BANK.SETBITS and BANK.SETINT make of
it (spec/44_bank_sequences.md R120 to R128) -/

namespace Sys2Proof.Machine

/-! ### A command issued, as steps of the block (R120, R166) -/

/-- What issuing a command can give: the command runs to a response, and taking that response leaves the block idle. -/
theorem issue_eq_some_iff {i : Instr} {s u : State} {r : Response} :
    issue i s = some (r, u) ↔
      ∃ t, exec i s = .next t ∧ t.phase = .responding r ∧
        u = { t with phase := .idle, responses := t.responses ++ [r] } := by
  constructor
  · intro h
    unfold issue at h
    split at h
    · next t ht =>
      split at h
      · next r' hp =>
        obtain ⟨rfl, rfl⟩ := Prod.mk.inj (Option.some.inj h)
        exact ⟨t, ht, hp, rfl⟩
      · exact absurd h (by simp)
    · exact absurd h (by simp)
  · rintro ⟨t, ht, hp, rfl⟩
    simp only [issue, ht, hp]

/-- Issuing a command that ends with an error: the response carries it, and the tables and calls are as before. -/
theorem issue_of_failed {i : Instr} {s : State} {e : Status} {d : Detail} (h : exec i s = failed s e d) :
    ∃ r t, issue i s = some (r, t) ∧ r.status = e ∧ r.detail = d ∧ t.bank = s.bank ∧ t.params = s.params ∧
      t.calls = s.calls :=
  issue_of_raise (h.trans (State.raise_eq_failed s e d).symm)

/-- Issuing a command that ends with `OK` over `u`: the response carries its fields, and the tables and calls are
those of `u`. -/
theorem issue_of_succeeded {i : Instr} {s u : State} {f : Results → Results} (h : exec i s = succeeded u f) :
    ∃ r t, issue i s = some (r, t) ∧ r.status = .ok ∧ r.results = f u.freeResults ∧ t.bank = u.bank ∧
      t.params = u.params ∧ t.calls = u.calls :=
  issue_of_respondOk (h.trans (State.respondOk_eq_succeeded u f).symm)

/-- The inputs that only the world outside the block drives and that a handover looks at: `rst` and the host's
`ready`. -/
abbrev SameHostInputs (s t : State) : Prop :=
  t.rst = s.rst ∧ t.respReady = s.respReady

theorem finishTransfer_sameHostInputs {s t : State} {x : Transfer} {a : TransportAnswer}
    (h : s.finishTransfer x a = .next t) : SameHostInputs s t := by
  rcases State.finishTransfer_cases h with ⟨_, rfl⟩ | ⟨_, _, rfl⟩ | ⟨_, _, c, _, ⟨_, rfl⟩ | ⟨S, _, rfl⟩⟩ <;>
    exact ⟨rfl, rfl⟩

theorem awaitAnswer_sameHostInputs {s t : State} {x : Transfer} (h : s.awaitAnswer x = .next t) :
    SameHostInputs s t := by
  rcases State.awaitAnswer_cases h with ⟨_, rfl⟩ | ⟨a, rest, _, h⟩
  · exact ⟨rfl, rfl⟩
  · exact finishTransfer_sameHostInputs (s := { s with answers := rest, stale := 0 }) h

theorem offerRequest_sameHostInputs {s t : State} {x : Transfer} (h : s.offerRequest x = .next t) :
    SameHostInputs s t := by
  rcases State.offerRequest_cases h with ⟨_, rfl⟩ | ⟨_, h⟩
  · exact ⟨rfl, rfl⟩
  · exact awaitAnswer_sameHostInputs (s := { s with calls := s.calls ++ [x.request] }) h

theorem exec_sameHostInputs {i : Instr} {s t : State} (h : exec i s = .next t) : SameHostInputs s t := by
  rcases exec_cases h with ⟨u, e, hw, f, d, _, rfl⟩ | ⟨x, _, h⟩
  · rw [hw.frame]
    exact ⟨rfl, rfl⟩
  · exact offerRequest_sameHostInputs h

theorem step_of_responding {s : State} {r : Response} (hrst : s.rst = false) (hp : s.phase = .responding r) :
    step s = .next (s.offerResponse r) := by
  simp [step, hrst, hp]

theorem State.offerResponse_of_ready {s : State} (h : s.respReady = true) (r : Response) :
    s.offerResponse r = { s with phase := .idle, responses := s.responses ++ [r] } :=
  if_pos h

/-- Settles O56: the first step accepts the record and runs its command; neither reset nor the host's `ready` has
changed, so the second hands over the response. -/
theorem issueIsTwoSteps : Obligations.IssueIsTwoSteps := by
  intro i s u r rest hrst hp hready hwf hc h
  obtain ⟨t, ht, hresp, rfl⟩ := issue_eq_some_iff.1 h
  obtain ⟨htrst, htready⟩ : t.rst = s.rst ∧ t.respReady = s.respReady :=
    exec_sameHostInputs (s := { s with commands := rest }) ht
  have haccept : step s = .next t := by
    rw [step_of_command hrst hp hc]
    exact (runRecord_of_wf (s := { s with commands := rest }) (decode_encode i) hwf).trans ht
  have hhandover : step t = .next { t with phase := .idle, responses := t.responses ++ [r] } := by
    rw [step_of_responding (htrst.trans hrst) hresp, State.offerResponse_of_ready (htready.trans hready)]
  rw [core_run_of_step 1 haccept, core_run_of_step 0 hhandover]
  rfl

/-! ### What an issued command keeps -/

/-- A command that does not use the transport makes no call when it is issued (R38). -/
theorem issue_calls_of_no_transport {i : Instr} {s u : State} {r : Response} (h : issue i s = some (r, u))
    (hi : usesTransport i = false) : u.calls = s.calls := by
  obtain ⟨t, ht, -, rfl⟩ := issue_eq_some_iff.1 h
  exact ((onlyReadAndWriteCallTheTransport i s t ht).1 hi).1

/-- A command other than the five that write the tables leaves the bank as it is when it is issued. -/
theorem issue_bank_of_not_writer {i : Instr} {s u : State} {r : Response} (h : issue i s = some (r, u))
    (hi : i.opcode ∉ [.regadd, .segadd, .setbits, .segupd, .read]) : u.bank = s.bank := by
  obtain ⟨t, ht, -, rfl⟩ := issue_eq_some_iff.1 h
  by_contra hne
  exact hi (by simpa using onlyFiveCommandsChangeTheBank i s t ht hne)

/-! ### The accessors (R122, R124, R125) -/

theorem readIf_false (reg : Name) (s : State) (k : State → HostResult) : readIf false reg s k = k s := rfl

theorem readIf_true_of_error {reg : Name} {s t : State} {r : Response} (h : issue (.read reg) s = some (r, t))
    (hr : r.status ≠ .ok) (k : State → HostResult) : readIf true reg s k = some (r, t) := by
  simp only [readIf, if_true, h, andThen_of_error hr]

theorem readIf_true_of_ok {reg : Name} {s t : State} {r : Response} (h : issue (.read reg) s = some (r, t))
    (hr : r.status = .ok) (k : State → HostResult) : readIf true reg s k = k t := by
  simp only [readIf, if_true, h, andThen_of_ok hr]

/-- Settles O59: each accessor is `readIf` before one command, and none of the three commands uses the transport or
writes the tables. -/
theorem accessorsReadFirstOnRequest : Obligations.AccessorsReadFirstOnRequest := by
  intro s t reg seg r
  refine ⟨⟨readIf_false .., readIf_false .., readIf_false ..⟩, ?_, fun h hr => ?_, fun h hr => ?_⟩
  · rintro (h | h | h)
    · have h : issue (.regget reg) s = some (r, t) := h
      exact ⟨issue_calls_of_no_transport h rfl, issue_bank_of_not_writer h (by simp [Instr.opcode])⟩
    · have h : issue (.segint reg seg) s = some (r, t) := h
      exact ⟨issue_calls_of_no_transport h rfl, issue_bank_of_not_writer h (by simp [Instr.opcode])⟩
    · have h : issue (.segtc reg seg) s = some (r, t) := h
      exact ⟨issue_calls_of_no_transport h rfl, issue_bank_of_not_writer h (by simp [Instr.opcode])⟩
  · exact ⟨readIf_true_of_error h hr _, readIf_true_of_error h hr _, readIf_true_of_error h hr _⟩
  · exact ⟨readIf_true_of_ok h hr _, readIf_true_of_ok h hr _, readIf_true_of_ok h hr _⟩

/-! ### BANK.SETBITS (R126, R127) -/

section Setbits

variable {s t : State} {reg seg : Name} {vec : List Nat} {r : Response}
  (h : issue (.setbits reg seg vec) s = some (r, t))
include h

theorem bankSetbits_without_write (writeFn : Name → HostSequence) :
    bankSetbits reg seg vec false writeFn s = some (r, t) := by
  by_cases hr : r.status = .ok
  · rw [bankSetbits, h, andThen_of_ok hr]
    rfl
  · rw [bankSetbits, h, andThen_of_error hr]

theorem bankSetbits_of_error (hr : r.status ≠ .ok) (writeAfter : Bool) (writeFn : Name → HostSequence) :
    bankSetbits reg seg vec writeAfter writeFn s = some (r, t) := by
  rw [bankSetbits, h, andThen_of_error hr]

theorem bankSetbits_with_write (hr : r.status = .ok) (writeFn : Name → HostSequence) :
    bankSetbits reg seg vec true writeFn s = runSequence (writeFn reg) r t := by
  rw [bankSetbits, h, andThen_of_ok hr]
  rfl

end Setbits

/-- A strategy that starts with a command issues that command; its error ends the strategy, and after an `OK` the
strategy goes on as it chooses. -/
theorem runSequence_command {i : Instr} {next : Response → HostSequence} {s u : State} {last r : Response}
    (h : issue i s = some (r, u)) :
    (r.status ≠ .ok → runSequence (.command i next) last s = some (r, u)) ∧
      (r.status = .ok → runSequence (.command i next) last s = runSequence (next r) r u) := by
  simp only [runSequence, h]
  exact ⟨fun hr => andThen_of_error hr, fun hr => andThen_of_ok hr⟩

/-- Settles O58: after an `OK` BANK.SETBITS is the strategy run from the state that SETBITS leaves, and the default
strategy is the one command WRITE, which writes no table. -/
theorem bankSetbitsKeepsTheNewBits : Obligations.BankSetbitsKeepsTheNewBits := by
  intro s t reg seg vec r h
  refine ⟨bankSetbits_without_write h _, fun hr => bankSetbits_of_error h hr, fun hr => ?_⟩
  have hwrite : bankSetbits reg seg vec true (s := s) = issue (.write reg) t := by
    rw [bankSetbits_with_write h hr, runSequence_writeStrategy]
  refine ⟨hwrite, fun r' u hu => ?_, fun writeFn i next r' u hfn hi => ?_⟩
  · exact issue_bank_of_not_writer (hwrite.symm.trans hu) (by simp [Instr.opcode])
  · rw [bankSetbits_with_write h hr, hfn]
    exact runSequence_command hi

/-! ### BANK.SETINT (R128) -/

/-- A bit-vector given back as the operand of a command is a valid operand. -/
theorem firstBad_map_toNat (b : Bits) : firstBad (b.map Bool.toNat) = none := by
  rw [firstBad_none_iff]
  rintro e he
  obtain ⟨x, -, rfl⟩ := List.mem_map.1 he
  exact Bool.toNat_le x

/-- The operand made of a bit-vector stands for that bit-vector. -/
theorem bitsOf_map_toNat (b : Bits) : bitsOf (b.map Bool.toNat) = b := by
  simp [bitsOf, Function.comp_def]

/-- The bits of a value in range have that value (law 1 of R75). -/
theorem toInt_toBits_toNat {v : Int} {w : Nat} (h0 : 0 ≤ v) (hlt : v < (2 : Int) ^ w) :
    (toInt (toBits v.toNat w) : Int) = v := by
  have hnat : v.toNat < 2 ^ w := by
    rw [Int.toNat_lt h0]
    exact_mod_cast hlt
  rw [toInt_toBits, Nat.mod_eq_of_lt hnat, Int.toNat_of_nonneg h0]

section Setint

variable {s : State} {reg seg : Name} {c : RegCtx} {S : Segment} (hc : s.findReg reg = some c)
  (hS : c.findSeg seg = some S)
include hc hS

/-- On a segment that exists the SEGGET answers its width and changes nothing, so BANK.SETINT is TOBITS to that width
and then BANK.SETBITS. -/
theorem bankSetint_of_found (value : Int) (writeAfter : Bool) (writeFn : Name → HostSequence) :
    ∃ s1 : State, s1.bank = s.bank ∧ s1.params = s.params ∧ s1.calls = s.calls ∧
      bankSetint reg seg value writeAfter writeFn s =
        andThen (issue (.tobits value S.width) s1) fun b s2 =>
          bankSetbits reg seg (b.results.vec.map Bool.toNat) writeAfter writeFn s2 := by
  obtain ⟨g, s1, hissue, hok, hres, hbank, hparams, hcalls⟩ := issue_of_succeeded (exec_segget_of_found hc hS)
  refine ⟨s1, hbank, hparams, hcalls, ?_⟩
  rw [bankSetint, hissue, andThen_of_ok hok, hres]
  rfl

/-- A value that TOBITS refuses is the end of BANK.SETINT. -/
theorem bankSetint_rangeError {value : Int} (hcap : ∀ m, s.params.maxBits = some m → S.width ≤ m)
    (hv : value < 0 ∨ (2 : Int) ^ S.width ≤ value) (writeAfter : Bool) (writeFn : Name → HostSequence) :
    ∃ r t, bankSetint reg seg value writeAfter writeFn s = some (r, t) ∧ r.status = .rangeError ∧
      t.bank = s.bank ∧ t.calls = s.calls := by
  obtain ⟨s1, hbank, hparams, hcalls, heq⟩ := bankSetint_of_found hc hS value writeAfter writeFn
  obtain ⟨r, t, hissue, hstatus, -, htbank, -, htcalls⟩ :=
    issue_of_failed (exec_tobits_rangeError (s := s1) (hparams ▸ hcap) hv)
  refine ⟨r, t, ?_, hstatus, htbank.trans hbank, htcalls.trans hcalls⟩
  rw [heq, hissue, andThen_of_error (by simp [hstatus])]

/-- A value that fits is stored by the SETBITS that follows: the tables and the calls end as that command leaves
them. -/
theorem bankSetint_of_inRange {value : Int} (hcap : ∀ m, s.params.maxBits = some m → S.width ≤ m)
    (h0 : 0 ≤ value) (hlt : value < (2 : Int) ^ S.width) (writeFn : Name → HostSequence) :
    ∃ r t, bankSetint reg seg value false writeFn s = some (r, t) ∧ r.status = .ok ∧ t.calls = s.calls ∧
      t.bank = (s.storeBits reg seg (toBits value.toNat S.width)).bank := by
  obtain ⟨s1, hbank, hparams, hcalls, heq⟩ := bankSetint_of_found hc hS value false writeFn
  obtain ⟨b, s2, hissue, hok, hres, hbank2, -, hcalls2⟩ :=
    issue_of_succeeded (exec_tobits_of_inRange (s := s1) (v := value)
      ((exceeds_eq_false_iff _ _).2 (hparams ▸ hcap)) (decide_eq_true ⟨h0, hlt⟩))
  have hsame : s2.bank = s.bank := hbank2.trans hbank
  have hvec : b.results.vec = toBits value.toNat S.width := by rw [hres]
  have hset := exec_setbits_of_bits ((State.findReg_congr s2 s hsame reg).trans hc) hS
    (vec := (toBits value.toNat S.width).map Bool.toNat) (by simp) (firstBad_map_toNat _)
  rw [bitsOf_map_toNat] at hset
  obtain ⟨r, t, hissue3, hok3, -, hbank3, -, hcalls3⟩ := issue_of_succeeded hset
  refine ⟨r, t, ?_, hok3, (hcalls3.trans hcalls2).trans hcalls, ?_⟩
  · rw [heq, hissue, andThen_of_ok hok, hvec]
    exact bankSetbits_without_write hissue3 writeFn
  · simp only [hbank3, State.storeBits, State.updateSegs_bank, hsame]

end Setint

/-- Settles O57: SEGGET gives the width, within MAX_BITS since `msb` is; whether the value fits it decides between
TOBITS refusing and SETBITS storing the bits, of that width and value. -/
theorem bankSetintStoresOrRefuses : Obligations.BankSetintStoresOrRefuses := by
  intro s reg seg value writeAfter writeFn before c after front S back hbank hbefore hname hsegs hfront hseg hle hmax
  have hc : s.findReg reg = some c := State.findReg_of_bank hbank hbefore hname
  have hS : c.findSeg seg = some S := RegCtx.findSeg_of_segs hsegs hfront hseg
  have hcap : ∀ m, s.params.maxBits = some m → S.width ≤ m := fun m hm => by
    have := hmax m hm
    simp only [Segment.width]
    omega
  refine ⟨fun hv => bankSetint_rangeError hc hS hcap hv writeAfter writeFn, fun ⟨h0, hlt⟩ => ?_⟩
  obtain ⟨r, t, hrun, hok, hcalls, hstored⟩ := bankSetint_of_inRange hc hS hcap h0 hlt writeFn
  rw [State.storeBits_eq hbank hbefore hname hsegs hfront hseg] at hstored
  exact ⟨r, t, _, hrun, hok, hcalls, hstored, length_toBits .., toInt_toBits_toNat h0 hlt⟩

/-! ### BANK.ADD (R121) -/

/-- The segment that SEGADD makes of a descriptor: its stored bits all zero (R81). -/
def zeroSegment (e : Name × Nat × Nat) : Segment :=
  { name := e.1, lsb := e.2.1, msb := e.2.2, bits := List.replicate (e.2.2 - e.2.1 + 1) false }

/-- A register context with zero segments of those descriptors appended to its table. -/
def RegCtx.withZeros (c : RegCtx) (added : List (Name × Nat × Nat)) : RegCtx :=
  { c with segs := c.segs ++ added.map zeroSegment }

@[simp] theorem RegCtx.withZeros_nil (c : RegCtx) : c.withZeros [] = c := by
  simp [RegCtx.withZeros]

theorem RegCtx.withZeros_cons (c : RegCtx) (e : Name × Nat × Nat) (added : List (Name × Nat × Nat)) :
    c.withZeros (e :: added) = (c.withZeros [e]).withZeros added := by
  simp [RegCtx.withZeros]

/-- What SEGADD does on a register that exists: it refuses, or it appends the zero segment. -/
theorem exec_segadd_of_found {s : State} {reg : Name} {c : RegCtx} (hc : s.findReg reg = some c)
    (e : Name × Nat × Nat) :
    (∃ status d, status ≠ .ok ∧ exec (.segadd reg e.1 e.2.1 e.2.2) s = failed s status d) ∨
      ∃ f, exec (.segadd reg e.1 e.2.1 e.2.2) s = succeeded (s.addSeg reg (zeroSegment e)) f := by
  rcases lt_or_ge e.2.2 e.2.1 with hlt | hle
  · exact .inl ⟨_, _, by simp, exec_segadd_of_reversed hc hlt⟩
  cases hfind : c.findSeg e.1 with
  | some S => exact .inl ⟨_, _, by simp, exec_segadd_of_known hc hle (by simp [hfind])⟩
  | none =>
    cases hmax : beyondBits s.params.maxBits e.2.2 with
    | true => exact .inl ⟨_, _, by simp, exec_segadd_of_beyond hc hle hfind hmax⟩
    | false =>
      cases hfull : atCapacity s.params.maxSegs c.segs.length with
      | true => exact .inl ⟨_, _, by simp, exec_segadd_of_full hc hle hfind hmax hfull⟩
      | false => exact .inr ⟨_, exec_segadd_of_room hc hle hfind hmax hfull⟩

/-- Issuing SEGADD for the register in the last slot: an error and the bank as it was, or `OK` and the zero segment in
that register. -/
theorem issue_segadd_last {s : State} {base : List RegCtx} {c : RegCtx} (hbank : s.bank = base ++ [c])
    (hnew : ∀ d ∈ base, d.name ≠ c.name) (e : Name × Nat × Nat) :
    ∃ r t, issue (.segadd c.name e.1 e.2.1 e.2.2) s = some (r, t) ∧ t.params = s.params ∧
      (r.status ≠ .ok ∧ t.bank = s.bank ∨ r.status = .ok ∧ t.bank = base ++ [c.withZeros [e]]) := by
  rcases exec_segadd_of_found (State.findReg_of_bank hbank hnew rfl) e with ⟨status, d, hne, hexec⟩ | ⟨f, hexec⟩
  · obtain ⟨r, t, hissue, hstatus, -, htbank, hparams, -⟩ := issue_of_failed hexec
    exact ⟨r, t, hissue, hparams, .inl ⟨hstatus ▸ hne, htbank⟩⟩
  · obtain ⟨r, t, hissue, hok, -, htbank, hparams, -⟩ := issue_of_succeeded hexec
    rw [State.addSeg_eq hbank hnew rfl] at htbank hparams
    exact ⟨r, t, hissue, hparams, .inr ⟨hok, htbank⟩⟩

/-- How the SEGADDs of BANK.ADD end, from a bank `base ++ [c]`: the descriptors `added` have become zero segments of
`c`, and either they are all of `segs`, or SEGADD of the next one gave the outcome, over the bank as it stands. -/
def AddsUpTo (base : List RegCtx) (c : RegCtx) (p : Params) (segs added : List (Name × Nat × Nat)) (r : Response)
    (t : State) : Prop :=
  t.bank = base ++ [c.withZeros added] ∧
    (r.status = .ok ∧ added = segs ∨
      r.status ≠ .ok ∧ ∃ e rest u, segs = added ++ e :: rest ∧ u.bank = t.bank ∧ u.params = p ∧
        issue (.segadd c.name e.1 e.2.1 e.2.2) u = some (r, t))

/-- What the later SEGADDs do follows one that was answered `OK`. -/
theorem AddsUpTo.cons {base : List RegCtx} {c : RegCtx} {p : Params} {segs added : List (Name × Nat × Nat)}
    {r : Response} {t : State} {e : Name × Nat × Nat} (h : AddsUpTo base (c.withZeros [e]) p segs added r t) :
    AddsUpTo base c p (e :: segs) (e :: added) r t := by
  obtain ⟨hbank, hend⟩ := h
  refine ⟨by rw [hbank, RegCtx.withZeros_cons c e added], ?_⟩
  rcases hend with ⟨hok, rfl⟩ | ⟨hne, e', rest, u, rfl, hu⟩
  · exact .inl ⟨hok, rfl⟩
  · exact .inr ⟨hne, e', rest, u, rfl, hu⟩

/-- The SEGADDs of BANK.ADD add segments in order up to the first that is refused (R121). -/
theorem addSegments_addsUpTo (segs : List (Name × Nat × Nat)) {s : State} {last : Response} {base : List RegCtx}
    {c : RegCtx} (hbank : s.bank = base ++ [c]) (hnew : ∀ d ∈ base, d.name ≠ c.name) (hlast : last.status = .ok) :
    ∃ r t added, addSegments c.name segs last s = some (r, t) ∧ AddsUpTo base c s.params segs added r t := by
  induction segs generalizing s last c with
  | nil => exact ⟨last, s, [], rfl, by simpa using hbank, .inl ⟨hlast, rfl⟩⟩
  | cons e rest ih =>
    obtain ⟨r, t, hissue, hparams, ⟨hne, htbank⟩ | ⟨hok, htbank⟩⟩ := issue_segadd_last hbank hnew e
    · refine ⟨r, t, [], ?_, by rw [htbank, hbank, RegCtx.withZeros_nil],
        .inr ⟨hne, e, rest, s, rfl, htbank.symm, rfl, hissue⟩⟩
      rw [addSegments, hissue, andThen_of_error hne]
    · obtain ⟨r', t', added, hrun, hadds⟩ := ih htbank hnew hok
      refine ⟨r', t', e :: added, ?_, (hparams ▸ hadds).cons⟩
      rw [addSegments, hissue, andThen_of_ok hok]
      exact hrun

/-- A REGADD that raises an error is the outcome of BANK.ADD, and the bank is as it was. -/
theorem bankAdd_of_failed {reg : Name} {raddr : Nat} {mode : AccessMode} {s : State} {e : Status} {d : Detail}
    (h : exec (.regadd reg raddr mode) s = failed s e d) (he : e ≠ .ok) (segs : List (Name × Nat × Nat)) :
    ∃ r t, bankAdd reg raddr mode segs s = some (r, t) ∧ r.status = e ∧ r.detail = d ∧ t.bank = s.bank := by
  obtain ⟨r, t, hissue, hstatus, hdetail, hbank, -⟩ := issue_of_failed h
  refine ⟨r, t, ?_, hstatus, hdetail, hbank⟩
  rw [bankAdd, hissue, andThen_of_error (hstatus ▸ he)]

/-- A new name in a bank with room: REGADD appends the register without segments, and the SEGADDs fill it. -/
theorem bankAdd_of_room {reg : Name} {s : State} (hnew : ∀ d ∈ s.bank, d.name ≠ reg)
    (hroom : s.params.maxRegs ≠ some s.bank.length) (raddr : Nat) (mode : AccessMode)
    (segs : List (Name × Nat × Nat)) :
    ∃ r t added, bankAdd reg raddr mode segs s = some (r, t) ∧
      AddsUpTo s.bank { name := reg, raddr := raddr, mode := mode, segs := [] } s.params segs added r t := by
  obtain ⟨r, u, hissue, hok, -, hbank, hparams, -⟩ := issue_of_succeeded
    (exec_regadd_of_room raddr mode ((s.findReg_none_iff reg).2 hnew) ((atCapacity_eq_false_iff _ _).2 hroom))
  rw [State.addReg_bank] at hbank
  rw [State.addReg_params] at hparams
  obtain ⟨r', t, added, hrun, hadds⟩ := addSegments_addsUpTo segs hbank hnew hok
  refine ⟨r', t, added, ?_, hparams ▸ hadds⟩
  rw [bankAdd, hissue, andThen_of_ok hok]
  exact hrun

/-- Settles O60: REGADD's three outcomes; after its `OK` the table of the new register is what the SEGADDs have added,
so its length says where the list was cut. -/
theorem bankAddIsNotAtomic : Obligations.BankAddIsNotAtomic := by
  intro s reg raddr mode segs
  refine ⟨fun hknown => ?_, fun hnew hfull => ?_, fun hnew hroom => ?_⟩
  · exact bankAdd_of_failed (exec_regadd_of_known raddr mode ((s.isSome_findReg_iff reg).2 hknown)) (by simp) segs
  · exact bankAdd_of_failed (exec_regadd_of_full raddr mode ((s.findReg_none_iff reg).2 hnew)
      ((atCapacity_eq_true_iff _ _).2 hfull)) (by simp) segs
  · obtain ⟨r, t, added, hrun, hbank, hend⟩ := bankAdd_of_room hnew hroom raddr mode segs
    refine ⟨r, t, _, hrun, hbank, rfl, rfl, rfl, ?_⟩
    simp only [RegCtx.withZeros, List.nil_append, List.length_map] at hbank ⊢
    rcases hend with ⟨hok, rfl⟩ | ⟨hne, e, rest, u, rfl, hubank, hparams, hissue⟩
    · exact ⟨by rw [List.take_length]; rfl, .inl ⟨hok, rfl⟩⟩
    · exact ⟨by rw [List.take_left]; rfl, .inr ⟨hne, e, u, by simp, hubank.trans hbank, hparams, hissue⟩⟩

end Sys2Proof.Machine
end

section
/-! ## The errors: every command goes on, what it can raise, and what it has stored when it does
(spec/60_exceptions.md R136 to R147) -/

namespace Sys2Proof.Machine

/-! ### No command stops the machine (R138, R142) -/

/-- The machine goes on: there is a next state. -/
def GoesOn (r : Result) : Prop :=
  ∃ t, r = .next t

theorem State.respondOk_goesOn (s : State) (fields : Results → Results) : GoesOn (s.respondOk fields) :=
  ⟨_, s.respondOk_eq fields⟩

theorem State.raise_goesOn (s : State) (e : Status) (d : Detail) : GoesOn (s.raise e d) :=
  ⟨_, s.raise_eq e d⟩

/-- A register lookup goes on if the rest of the command does so with the context it finds. -/
theorem State.withReg_goesOn {s : State} {reg : Name} {k : RegCtx → Result}
    (h : ∀ c, s.findReg reg = some c → GoesOn (k c)) : GoesOn (s.withReg reg k) := by
  cases hc : s.findReg reg with
  | none =>
    rw [State.withReg_none s reg k hc]
    exact s.raise_goesOn _ _
  | some c =>
    rw [State.withReg_some s reg k c hc]
    exact h c hc

theorem State.withSeg_goesOn {s : State} {reg seg : Name} {k : RegCtx → Segment → Result}
    (h : ∀ c S, GoesOn (k c S)) : GoesOn (s.withSeg reg seg k) := by
  refine State.withReg_goesOn fun c _ => ?_
  cases c.findSeg seg with
  | none => exact s.raise_goesOn _ _
  | some S => exact h c S

theorem State.withVec_goesOn {s : State} {vec : List Nat} {k : Bits → Result} (h : ∀ b, GoesOn (k b)) :
    GoesOn (s.withVec vec k) := by
  unfold State.withVec
  split
  · exact s.raise_goesOn _ _
  · split
    · exact s.raise_goesOn _ _
    · exact h _

/-- The end of a transfer goes on where its register is in the bank: the one fault is that it is not (R26). -/
theorem State.finishTransfer_goesOn {s : State} {x : Transfer} {c : RegCtx} (hc : s.findReg x.reg = some c)
    (a : TransportAnswer) : GoesOn (s.finishTransfer x a) := by
  unfold State.finishTransfer
  split
  · exact s.raise_goesOn _ _
  · split
    · exact s.respondOk_goesOn _
    · simp only [hc]
      split
      · exact State.respondOk_goesOn _ _
      · exact State.raise_goesOn _ _ _

theorem State.awaitAnswer_goesOn {s : State} {x : Transfer} {c : RegCtx} (hc : s.findReg x.reg = some c) :
    GoesOn (s.awaitAnswer x) := by
  cases ha : s.answers.drop s.stale with
  | nil => exact ⟨_, State.awaitAnswer_of_silent ha⟩
  | cons a rest =>
    rw [State.awaitAnswer_of_answer ha]
    exact State.finishTransfer_goesOn (s := { s with answers := rest, stale := 0 }) hc a

theorem State.offerRequest_goesOn {s : State} {x : Transfer} {c : RegCtx} (hc : s.findReg x.reg = some c) :
    GoesOn (s.offerRequest x) := by
  cases hready : s.treqReady with
  | false => exact ⟨_, State.offerRequest_of_not_ready hready x⟩
  | true =>
    rw [State.offerRequest_of_ready hready]
    exact State.awaitAnswer_goesOn (s := { s with calls := s.calls ++ [x.request] }) hc

theorem execTobits_goesOn (value : Int) (width : Nat) (s : State) : GoesOn (execTobits value width s) := by
  unfold execTobits
  split
  · exact s.raise_goesOn _ _
  · split
    · exact s.respondOk_goesOn _
    · exact s.raise_goesOn _ _

theorem execRegadd_goesOn (reg : Name) (raddr : Nat) (mode : AccessMode) (s : State) :
    GoesOn (execRegadd reg raddr mode s) := by
  unfold execRegadd
  split
  · exact s.raise_goesOn _ _
  · split
    · exact s.raise_goesOn _ _
    · exact State.respondOk_goesOn _ _

theorem execSegadd_goesOn (reg seg : Name) (lsb msb : Nat) (s : State) : GoesOn (execSegadd reg seg lsb msb s) := by
  refine State.withReg_goesOn fun c _ => ?_
  split
  · exact s.raise_goesOn _ _
  split
  · exact s.raise_goesOn _ _
  split
  · exact s.raise_goesOn _ _
  split
  · exact s.raise_goesOn _ _
  · exact State.respondOk_goesOn _ _

theorem execSetbits_goesOn (reg seg : Name) (vec : List Nat) (s : State) : GoesOn (execSetbits reg seg vec s) := by
  refine State.withSeg_goesOn fun c S => ?_
  split
  · exact s.raise_goesOn _ _
  · split
    · exact s.raise_goesOn _ _
    · exact State.respondOk_goesOn _ _

theorem execSegupd_goesOn (reg seg : Name) (y : List Byte) (s : State) : GoesOn (execSegupd reg seg y s) := by
  refine State.withSeg_goesOn fun c S => ?_
  split
  · exact s.raise_goesOn _ _
  · split
    · exact State.respondOk_goesOn _ _
    · exact s.raise_goesOn _ _

/-- A READ offers its request only for a register that it has found. -/
theorem execRead_goesOn (reg : Name) (s : State) : GoesOn (execRead reg s) := by
  refine State.withReg_goesOn fun c hc => ?_
  split
  · exact s.raise_goesOn _ _
  · split
    · exact s.raise_goesOn _ _
    · exact State.offerRequest_goesOn hc

/-- A WRITE offers its request only for a register that it has found. -/
theorem execWrite_goesOn (reg : Name) (s : State) : GoesOn (execWrite reg s) := by
  refine State.withReg_goesOn fun c hc => ?_
  split
  · exact s.raise_goesOn _ _
  · split
    · exact s.raise_goesOn _ _
    · split
      · exact s.raise_goesOn _ _
      · exact State.offerRequest_goesOn hc

theorem exec_goesOn (i : Instr) (s : State) : GoesOn (exec i s) := by
  cases i with
  | tobits value width => exact execTobits_goesOn value width s
  | toint vec => exact State.withVec_goesOn fun _ => s.respondOk_goesOn _
  | totc vec => exact State.withVec_goesOn fun _ => s.respondOk_goesOn _
  | nbytes n => exact ⟨_, exec_nbytes n s⟩
  | padbytes vec => exact State.withVec_goesOn fun _ => s.respondOk_goesOn _
  | regadd reg raddr mode => exact execRegadd_goesOn reg raddr mode s
  | segadd reg seg lsb msb => exact execSegadd_goesOn reg seg lsb msb s
  | regget reg => exact State.withReg_goesOn fun _ _ => s.respondOk_goesOn _
  | segget reg seg => exact State.withSeg_goesOn fun _ _ => s.respondOk_goesOn _
  | totbits reg => exact State.withReg_goesOn fun _ _ => s.respondOk_goesOn _
  | totbytes reg => exact State.withReg_goesOn fun _ _ => s.respondOk_goesOn _
  | setbits reg seg vec => exact execSetbits_goesOn reg seg vec s
  | segupd reg seg y => exact execSegupd_goesOn reg seg y s
  | segint reg seg => exact State.withSeg_goesOn fun _ _ => s.respondOk_goesOn _
  | segtc reg seg => exact State.withSeg_goesOn fun _ _ => s.respondOk_goesOn _
  | read reg => exact execRead_goesOn reg s
  | write reg => exact execWrite_goesOn reg s

/-- Settles O6: every path of a command ends in a response or an offered request, and either keeps the block busy. -/
theorem everyCommandHasANextState : Obligations.EveryCommandHasANextState := by
  intro i s
  obtain ⟨t, ht⟩ := exec_goesOn i s
  obtain ⟨-, -, hbusy⟩ := exec_staysOccupied ht
  refine ⟨t, ht, fun hidle => ?_⟩
  simp [State.busy, hidle] at hbusy

/-! ### No legal state stops on more than a record that does not fit -/

theorem step_of_rst {s : State} (hrst : s.rst = true) : step s = .next s.applyReset :=
  if_pos hrst

theorem step_of_no_command {s : State} (hrst : s.rst = false) (hp : s.phase = .idle) (hc : s.commands = []) :
    step s = .next s := by
  simp [step, State.fetch, hrst, hp, hc]

/-- Accepting a record goes on, unless it decodes to a command whose operands do not fit the channel (log 5). -/
theorem runRecord_goesOn_or_misfit (r : CommandRecord) (s : State) :
    GoesOn (runRecord r s) ∨
      runRecord r s = .refused .recordDoesNotFit ∧ ∃ i, decode r = .ok i ∧ i.wf s.params = false := by
  cases ho : Opcode.ofCode r.op with
  | none =>
    rw [runRecord_of_no_opcode ho]
    exact .inl (s.raise_goesOn _ _)
  | some o =>
    have hi : decode r = .ok (r.toInstr o) := decode_of_opcode ho
    cases hwf : (r.toInstr o).wf s.params with
    | true =>
      rw [runRecord_of_wf hi hwf]
      exact .inl (exec_goesOn _ s)
    | false => exact .inr ⟨runRecord_of_misfit hi hwf, _, hi, hwf⟩

/-- Settles O7: a transfer in flight has its register in the bank, and an accepted record goes on or does not fit. -/
theorem legalStatesDoNotStop : Obligations.LegalStatesDoNotStop := by
  intro s ⟨_, _, _, hphase⟩
  cases hrst : s.rst with
  | true => exact .inl ⟨_, step_of_rst hrst⟩
  | false =>
    cases hp : s.phase with
    | idle =>
      cases hc : s.commands with
      | nil => exact .inl ⟨s, step_of_no_command hrst hp hc⟩
      | cons r rest =>
        rw [step_of_command hrst hp hc]
        exact (runRecord_goesOn_or_misfit r { s with commands := rest }).imp_right
          fun ⟨hrefused, i, hi, hwf⟩ => ⟨hrefused, r, rest, i, rfl, hi, hwf⟩
    | requesting x =>
      obtain ⟨c, hc, -⟩ : x.Legal s := by simpa only [hp] using hphase
      rw [step_of_requesting hrst hp]
      exact .inl (State.offerRequest_goesOn hc)
    | waiting x =>
      obtain ⟨c, hc, -⟩ : x.Legal s := by simpa only [hp] using hphase
      rw [step_of_waiting hrst hp]
      exact .inl (State.awaitAnswer_goesOn hc)
    | responding r => exact .inl ⟨_, step_of_responding hrst hp⟩

/-! ### Unknown names (R140) -/

/-- Every command that names a register, but the REGADD that makes it, looks that register up first (D9). -/
theorem exec_eq_withReg {i : Instr} {reg : Name} (hi : namedReg i = some reg) (hadd : i.opcode ≠ .regadd)
    (s : State) : ∃ k, exec i s = s.withReg reg k := by
  cases i with
  | tobits | toint | totc | nbytes | padbytes => simp [namedReg] at hi
  | regadd => simp [Instr.opcode] at hadd
  | _ =>
    obtain rfl := Option.some.inj hi
    exact ⟨_, rfl⟩

theorem exec_of_unknown_register {i : Instr} {s : State} {reg : Name} (hreg : s.findReg reg = none)
    (hi : namedReg i = some reg) (hadd : i.opcode ≠ .regadd) :
    exec i s = failed s .notFound (.named .register reg) := by
  obtain ⟨k, hk⟩ := exec_eq_withReg hi hadd s
  rw [hk, State.withReg_none s reg k hreg, State.raise_eq_failed]

theorem State.withSeg_of_unknown_segment {s : State} {reg seg : Name} {c : RegCtx} (hc : s.findReg reg = some c)
    (hseg : c.findSeg seg = none) (k : RegCtx → Segment → Result) :
    s.withSeg reg seg k = failed s .notFound (.named .segment seg) := by
  simp only [State.withSeg, State.withReg_some s reg _ c hc, hseg, State.raise_eq_failed]

/-- Settles O21: the lookups come first, and find nothing. -/
theorem unknownNamesAnswerNotFound : Obligations.UnknownNamesAnswerNotFound := by
  intro s reg seg
  refine ⟨fun hreg i hi hadd => exec_of_unknown_register ((s.findReg_none_iff reg).2 hreg) hi hadd,
    fun before c after hbank hbefore hname hsegs => ?_⟩
  have hfails := State.withSeg_of_unknown_segment (State.findReg_of_bank hbank hbefore hname)
    ((c.findSeg_none_iff seg).2 hsegs)
  exact ⟨hfails _, hfails _, hfails _, fun _ => hfails _, fun _ => hfails _⟩

/-! ### What a command can raise (R136, R139) -/

/-- A block with a bound on one of its capacities (R4). -/
inductive HasCapacity (p : Params) : Prop where
  | regs (h : p.maxRegs ≠ none)
  | segs (h : p.maxSegs ≠ none)
  | bits (h : p.maxBits ≠ none)
  | bytes (h : p.maxBytes ≠ none)

theorem ne_none_of_exceeds {cap : Option Nat} {n : Nat} (h : exceeds cap n = true) : cap ≠ none := by
  obtain ⟨m, rfl, -⟩ := (exceeds_eq_true_iff cap n).1 h
  simp

theorem ne_none_of_atCapacity {cap : Option Nat} {n : Nat} (h : atCapacity cap n = true) : cap ≠ none := by
  simp [(atCapacity_eq_true_iff cap n).1 h]

theorem ne_none_of_beyondBits {cap : Option Nat} {msb : Nat} (h : beyondBits cap msb = true) : cap ≠ none := by
  obtain ⟨m, rfl, -⟩ := (beyondBits_eq_true_iff cap msb).1 h
  simp

/-- The bit-vector operand of a command; empty where its format has none (R51). -/
def vecOperand : Instr → List Nat
  | .toint vec => vec
  | .totc vec => vec
  | .padbytes vec => vec
  | .setbits _ _ vec => vec
  | _ => []

/-- The elements of a command that fits the channel fit it. -/
theorem elemsFit_vecOperand {i : Instr} {p : Params} (h : i.wf p = true) : elemsFit p (vecOperand i) = true := by
  cases i with
  | toint | totc | padbytes => exact h
  | setbits =>
    simp only [Instr.wf, Bool.and_eq_true] at h
    obtain ⟨-, helems⟩ := h
    exact helems
  | _ => rfl

/-- The command `i` accepted in `s` may itself raise `e`: it is of the command's row in the table of R136, and an error
of a capacity or of an element has its cause. -/
structure Raises (s : State) (i : Instr) (e : Status) : Prop where
  kind : e ∈ mayRaise i
  capacity : e = .capacityExceeded → HasCapacity s.params
  element : e = .invalidBitValue → firstBad (vecOperand i) ≠ none

/-- The command ends with `OK`, or raises an error over the state it was accepted in. -/
def AnswersOrRaises (s : State) (i : Instr) (t : State) : Prop :=
  (∃ u, RespondsOver s u t .ok) ∨ ∃ e, RespondsOver s s t e ∧ Raises s i e

section Raising

variable {s t : State} {i : Instr}

/-- An error that is neither of a capacity nor of an element needs its place in the table only. -/
theorem answersOrRaises_of_kind {e : Status} (h : RespondsOver s s t e) (hkind : e ∈ mayRaise i := by simp [mayRaise])
    (hcap : e ≠ .capacityExceeded := by simp) (helem : e ≠ .invalidBitValue := by simp) : AnswersOrRaises s i t :=
  .inr ⟨e, h, hkind, fun he => absurd he hcap, fun he => absurd he helem⟩

theorem answersOrRaises_of_capacity (h : RespondsOver s s t .capacityExceeded) (hcap : HasCapacity s.params)
    (hkind : .capacityExceeded ∈ mayRaise i := by simp [mayRaise]) : AnswersOrRaises s i t :=
  .inr ⟨_, h, hkind, fun _ => hcap, by simp⟩

theorem answersOrRaises_of_element {k : Nat} (h : RespondsOver s s t .invalidBitValue)
    (hbad : firstBad (vecOperand i) = some k) (hkind : .invalidBitValue ∈ mayRaise i := by simp [mayRaise]) :
    AnswersOrRaises s i t :=
  .inr ⟨_, h, hkind, by simp, fun _ => by simp [hbad]⟩

/-- A command that only looks names up. -/
theorem answersOrRaises_of_lookup (h : ∃ e, RespondsOver s s t e ∧ (e = .ok ∨ e = .notFound))
    (hkind : .notFound ∈ mayRaise i := by simp [mayRaise]) : AnswersOrRaises s i t := by
  obtain ⟨e, hr, rfl | rfl⟩ := h
  · exact .inl ⟨s, hr⟩
  · exact answersOrRaises_of_kind hr hkind

/-- A conversion of a bit-vector operand. -/
theorem answersOrRaises_of_conversion
    (h : ∃ e, RespondsOver s s t e ∧ (e = .ok ∨ (e = .invalidBitValue ∧ ∃ k, firstBad (vecOperand i) = some k) ∨
      (e = .capacityExceeded ∧ exceeds s.params.maxBits (vecOperand i).length = true)))
    (hrow : mayRaise i = [.invalidBitValue, .capacityExceeded]) : AnswersOrRaises s i t := by
  obtain ⟨e, hr, rfl | ⟨rfl, k, hbad⟩ | ⟨rfl, hx⟩⟩ := h
  · exact .inl ⟨s, hr⟩
  · exact answersOrRaises_of_element hr hbad (by simp [hrow])
  · exact answersOrRaises_of_capacity hr (.bits (ne_none_of_exceeds hx)) (by simp [hrow])

end Raising

/-- What a command can answer: `OK`, an error of its own over the state it was accepted in, or (READ and WRITE) what its
one transport request comes to. -/
theorem exec_answer_cases {i : Instr} {s t : State} (h : exec i s = .next t) :
    AnswersOrRaises s i t ∨ ∃ x, StartsTransfer s i x ∧ s.offerRequest x = .next t := by
  cases i with
  | tobits value width =>
    obtain ⟨e, hr, rfl | rfl | ⟨rfl, hx⟩⟩ := execTobits_cases h
    · exact .inl (.inl ⟨s, hr⟩)
    · exact .inl (answersOrRaises_of_kind hr)
    · exact .inl (answersOrRaises_of_capacity hr (.bits (ne_none_of_exceeds hx)))
  | toint vec => exact .inl (answersOrRaises_of_conversion (execToint_cases h) rfl)
  | totc vec => exact .inl (answersOrRaises_of_conversion (execTotc_cases h) rfl)
  | nbytes n => exact .inl (.inl ⟨s, execNbytes_cases h⟩)
  | padbytes vec => exact .inl (answersOrRaises_of_conversion (execPadbytes_cases h) rfl)
  | regadd reg raddr mode =>
    rcases execRegadd_cases h with hr | ⟨hr, hx⟩ | ⟨_, _, hr⟩
    · exact .inl (answersOrRaises_of_kind hr)
    · exact .inl (answersOrRaises_of_capacity hr (.regs (ne_none_of_atCapacity hx)))
    · exact .inl (.inl ⟨_, hr⟩)
  | segadd reg seg lsb msb =>
    rcases execSegadd_cases h with ⟨e, hr, rfl | rfl | rfl | ⟨rfl, c, _, hx⟩⟩ | ⟨_, _, _, _, _, _, hr⟩
    · exact .inl (answersOrRaises_of_kind hr)
    · exact .inl (answersOrRaises_of_kind hr)
    · exact .inl (answersOrRaises_of_kind hr)
    · refine .inl (answersOrRaises_of_capacity hr ?_)
      rcases hx with hx | hx
      · exact .bits (ne_none_of_beyondBits hx)
      · exact .segs (ne_none_of_atCapacity hx)
    · exact .inl (.inl ⟨_, hr⟩)
  | regget reg => exact .inl (answersOrRaises_of_lookup (execRegget_cases h))
  | segget reg seg => exact .inl (answersOrRaises_of_lookup (execSegget_cases h))
  | totbits reg => exact .inl (answersOrRaises_of_lookup (execTotbits_cases h))
  | totbytes reg => exact .inl (answersOrRaises_of_lookup (execTotbytes_cases h))
  | setbits reg seg vec =>
    rcases execSetbits_cases h with ⟨e, hr, rfl | rfl | ⟨rfl, k, hbad⟩⟩ | ⟨_, _, _, _, _, hr⟩
    · exact .inl (answersOrRaises_of_kind hr)
    · exact .inl (answersOrRaises_of_kind hr)
    · exact .inl (answersOrRaises_of_element hr hbad)
    · exact .inl (.inl ⟨_, hr⟩)
  | segupd reg seg y =>
    rcases execSegupd_cases h with ⟨e, hr, rfl | rfl | ⟨rfl, hx⟩⟩ | ⟨_, _, _, _, hr⟩
    · exact .inl (answersOrRaises_of_kind hr)
    · exact .inl (answersOrRaises_of_kind hr)
    · exact .inl (answersOrRaises_of_capacity hr (.bytes (ne_none_of_exceeds hx)))
    · exact .inl (.inl ⟨_, hr⟩)
  | segint reg seg => exact .inl (answersOrRaises_of_lookup (execSegint_cases h))
  | segtc reg seg => exact .inl (answersOrRaises_of_lookup (execSegtc_cases h))
  | read reg =>
    rcases execRead_cases h with ⟨e, hr, rfl | rfl | ⟨rfl, c, _, hx⟩⟩ | ⟨c, hc, hmode, ho⟩
    · exact .inl (answersOrRaises_of_kind hr)
    · exact .inl (answersOrRaises_of_kind hr)
    · exact .inl (answersOrRaises_of_capacity hr (.bytes (ne_none_of_exceeds hx)))
    · exact .inr ⟨_, .read hc hmode, ho⟩
  | write reg =>
    rcases execWrite_cases h with ⟨e, hr, he⟩ | ⟨c, hc, hmode, hlayout, ho⟩
    · rcases he with rfl | rfl | rfl | rfl | rfl <;> exact .inl (answersOrRaises_of_kind hr)
    · exact .inr ⟨_, .write hc hmode hlayout, ho⟩

/-! ### What a transfer can end in (R42, R100, R101) -/

/-- Only a response that is offered has a status: no other phase does. -/
theorem State.status_eq_some_iff (s : State) (e : Status) :
    s.status = some e ↔ ∃ r, s.phase = .responding r ∧ r.status = e := by
  unfold State.status State.offered
  cases s.phase <;> simp

/-- A transfer that was in `s` ends in `t` with the error `e`: TransportError over the bank as it was, or, for a READ,
InsufficientData. -/
def TransferFails (s t : State) (x : Transfer) (e : Status) : Prop :=
  (e = .transportError ∧ t.bank = s.bank) ∨ (e = .insufficientData ∧ ∃ dev ra n, x.request = .readBytes dev ra n)

theorem finishTransfer_status {s t : State} {x : Transfer} {a : TransportAnswer} {e : Status}
    (h : s.finishTransfer x a = .next t) (he : t.status = some e) : e = .ok ∨ TransferFails s t x e := by
  rcases State.finishTransfer_cases h with ⟨_, rfl⟩ | ⟨_, _, rfl⟩ | ⟨_, hread, c, _, ⟨_, rfl⟩ | ⟨S, _, rfl⟩⟩ <;>
    obtain rfl := Option.some.inj he
  · exact .inr (.inl ⟨rfl, rfl⟩)
  · exact .inl rfl
  · exact .inl rfl
  · exact .inr (.inr ⟨rfl, hread⟩)

theorem awaitAnswer_status {s t : State} {x : Transfer} {e : Status} (h : s.awaitAnswer x = .next t)
    (he : t.status = some e) : e = .ok ∨ TransferFails s t x e := by
  rcases State.awaitAnswer_cases h with ⟨_, rfl⟩ | ⟨a, rest, _, h⟩
  · simp [State.status_eq_some_iff] at he
  · exact finishTransfer_status (s := { s with answers := rest, stale := 0 }) h he

theorem offerRequest_status {s t : State} {x : Transfer} {e : Status} (h : s.offerRequest x = .next t)
    (he : t.status = some e) : e = .ok ∨ TransferFails s t x e := by
  rcases State.offerRequest_cases h with ⟨_, rfl⟩ | ⟨_, h⟩
  · simp [State.status_eq_some_iff] at he
  · exact awaitAnswer_status (s := { s with calls := s.calls ++ [x.request] }) h he

/-- Both ends of a transfer in an error are of READ's row. -/
theorem TransferFails.mem_mayRaise_read {s t : State} {x : Transfer} {e : Status} (h : TransferFails s t x e)
    (reg : Name) : e ∈ mayRaise (.read reg) := by
  rcases h with ⟨rfl, -⟩ | ⟨rfl, -⟩ <;> simp [mayRaise]

/-- A WRITE's transfer ends in an error of WRITE's row: it has no bytes that could be too few. -/
theorem TransferFails.mem_mayRaise_write {s t : State} {x : Transfer} {e : Status} (h : TransferFails s t x e)
    (hx : ∃ dev ra y, x.request = .writeBytes dev ra y) (reg : Name) : e ∈ mayRaise (.write reg) := by
  obtain ⟨_, _, _, hx⟩ := hx
  rcases h with ⟨rfl, -⟩ | ⟨-, _, _, _, hread⟩
  · simp [mayRaise]
  · simp [hx] at hread

/-- The error a command's transfer ends in is of the command's row. -/
theorem StartsTransfer.mem_mayRaise {s t : State} {i : Instr} {x : Transfer} {e : Status}
    (hx : StartsTransfer s i x) (h : TransferFails s t x e) : e ∈ mayRaise i := by
  cases hx with
  | read => exact h.mem_mayRaise_read _
  | write => exact h.mem_mayRaise_write ⟨_, _, _, rfl⟩ _

/-! ### The status of a command's response -/

theorem RespondsOver.status {s u t : State} {e : Status} (h : RespondsOver s u t e) : t.status = some e := by
  obtain ⟨f, d, -, rfl⟩ := h
  rfl

theorem RespondsOver.bank {s u t : State} {e : Status} (h : RespondsOver s u t e) : t.bank = u.bank := by
  obtain ⟨f, d, -, rfl⟩ := h
  rfl

/-- What stands behind the status a command answers: `OK`, an error of its own, which has stored nothing, or the failure
of its transfer. -/
theorem exec_status_cases {i : Instr} {s t : State} {e : Status} (h : exec i s = .next t)
    (he : t.status = some e) :
    e = .ok ∨ (Raises s i e ∧ t.bank = s.bank) ∨ ∃ x, StartsTransfer s i x ∧ TransferFails s t x e := by
  rcases exec_answer_cases h with (⟨u, hr⟩ | ⟨e', hr, hraises⟩) | ⟨x, hx, ho⟩
  · exact .inl (Option.some.inj (he.symm.trans hr.status))
  · obtain rfl : e = e' := Option.some.inj (he.symm.trans hr.status)
    exact .inr (.inl ⟨hraises, hr.bank⟩)
  · exact (offerRequest_status ho he).imp_right fun hfails => .inr ⟨x, hx, hfails⟩

/-- Settles O39: the command's own errors and the failures of its transfer are of its row; a transfer in flight has the
failures of its kind. -/
theorem commandsRaiseOnlyTheirKinds : Obligations.CommandsRaiseOnlyTheirKinds := by
  refine ⟨fun i s t e h he => ?_, fun s t x e hrst hp h he => ?_⟩
  · rcases exec_status_cases h he with hok | ⟨hraises, -⟩ | ⟨x, hx, hfails⟩
    · exact .inl hok
    · exact .inr hraises.kind
    · exact .inr (hx.mem_mayRaise hfails)
  · have hend : e = .ok ∨ TransferFails s t x e := by
      rcases hp with hp | hp
      · exact offerRequest_status (step_of_requesting hrst hp ▸ h) he
      · exact awaitAnswer_status (step_of_waiting hrst hp ▸ h) he
    exact ⟨fun _ => hend.imp_right fun hfails => hfails.mem_mayRaise_read x.reg,
      fun hx => hend.imp_right fun hfails => hfails.mem_mayRaise_write hx x.reg⟩

/-- Settles O40: an error of the command's own and a TransportError store nothing, and InsufficientData ends only the
transfer of a READ. -/
theorem errorsLeaveTheBankUnchanged : Obligations.ErrorsLeaveTheBankUnchanged := by
  intro i s t e h he hne
  rcases exec_status_cases h he with hok | ⟨-, hbank⟩ | ⟨x, hx, ⟨-, hbank⟩ | ⟨hdata, _, _, _, hread⟩⟩
  · exact absurd hok hne
  · exact .inl hbank
  · exact .inl hbank
  · cases hx with
    | read => exact .inr ⟨hdata, _, rfl⟩
    | write => simp at hread

/-- Settles O41: a command raises CapacityExceeded only against a bound, and no transfer ends in it. -/
theorem unboundedBlocksNeverExceed : Obligations.UnboundedBlocksNeverExceed := by
  intro i s t hregs hsegs hbits hbytes h he
  rcases exec_status_cases h he with hok | ⟨hraises, -⟩ | ⟨x, -, ⟨hne, -⟩ | ⟨hne, -⟩⟩
  · simp at hok
  · cases hraises.capacity rfl with
    | regs h => exact h hregs
    | segs h => exact h hsegs
    | bits h => exact h hbits
    | bytes h => exact h hbytes
  · simp at hne
  · simp at hne

/-- A command whose one-bit elements fit the channel does not find an invalid one (R76, R90). -/
theorem exec_status_ne_invalidBitValue {i : Instr} {s t : State} (helem : s.params.elemW = some 1)
    (hwf : i.wf s.params = true) (h : exec i s = .next t) : t.status ≠ some .invalidBitValue := by
  intro he
  rcases exec_status_cases h he with hok | ⟨hraises, -⟩ | ⟨x, -, ⟨hne, -⟩ | ⟨hne, -⟩⟩
  · simp at hok
  · exact hraises.element rfl ((firstBad_none_iff _).2 (le_one_of_elemsFit helem (elemsFit_vecOperand hwf)))
  · simp at hne
  · simp at hne

/-- Settles O42: an idle block accepts nothing, rejects a reserved `op`, or runs a command whose elements fit. -/
theorem oneBitElementsAreNeverInvalid : Obligations.OneBitElementsAreNeverInvalid := by
  intro s t helem hp hrst h
  cases hc : s.commands with
  | nil =>
    obtain rfl : s = t := Host.Outcome.next.inj ((step_of_no_command hrst hp hc).symm.trans h)
    simp [State.status_eq_some_iff, hp]
  | cons r rest =>
    rw [step_of_command hrst hp hc] at h
    rcases runRecord_cases h with ⟨-, rfl⟩ | ⟨i, -, hwf, h⟩
    · simp
    · exact exec_status_ne_invalidBitValue (s := { s with commands := rest }) helem hwf h

end Sys2Proof.Machine
end

section
/-! ## The response's handshake, and what a reset abandons (spec/20_memory.md R46; spec/60_exceptions.md R138;
spec/70_reset_and_hazards.md R161 to R166) -/

namespace Sys2Proof.Machine

/-! ### The response's handshake (R138, R166) -/

theorem State.offerResponse_of_not_ready {s : State} (h : s.respReady = false) (r : Response) :
    s.offerResponse r = s := by
  simp [State.offerResponse, h]

/-- Settles O46: a step in the responding phase is the offer of the response, which the host takes or leaves. -/
theorem responsesPassByHandshake : Obligations.ResponsesPassByHandshake := by
  intro s r hrst hp
  rw [step_of_responding hrst hp]
  refine ⟨fun hbusy => ?_, fun hready => ?_⟩
  · rw [State.offerResponse_of_not_ready hbusy]
  · rw [State.offerResponse_of_ready hready]

/-! ### Reset (R161 to R163) -/

/-- A reset while no answer is owed leaves none more to discard. -/
theorem State.applyReset_stale_not_waiting (s : State) (h : ∀ x, s.phase ≠ .waiting x) :
    s.applyReset.stale = s.stale := by
  unfold State.applyReset
  split
  · next x hp => exact absurd hp (h x)
  · rfl

/-- Settles O47: with `rst` high the step is `applyReset`, whose count of late answers grows by the one a waiting
transfer is owed. -/
theorem resetEmptiesTheBank : Obligations.ResetEmptiesTheBank := by
  intro s hrst
  refine ⟨s.applyReset.stale, step_of_rst hrst, fun hwaiting => ?_, s.applyReset_stale_not_waiting⟩
  obtain ⟨x, hp⟩ := hwaiting
  exact s.applyReset_stale_waiting x hp

/-! ### The answer to an abandoned request (R46, R163) -/

theorem State.takeAnswer_of_answer {s : State} {a : TransportAnswer} {rest : List TransportAnswer}
    (h : s.answers.drop s.stale = a :: rest) : s.takeAnswer = some (a, { s with answers := rest, stale := 0 }) := by
  simp [State.takeAnswer, h]

/-- After the reset of a transfer that waits, the first answer that no earlier reset discards is passed over. -/
theorem State.applyReset_drop_of_waiting {s : State} {x : Transfer} (hp : s.phase = .waiting x) :
    s.applyReset.answers.drop s.applyReset.stale = (s.answers.drop s.stale).tail := by
  rw [State.applyReset_stale_waiting s x hp, State.applyReset_answers, List.tail_drop]

/-- Settles O48: the reset marks the late answer as one to discard, so the next answer taken is the one after it. -/
theorem lateAnswersAreDiscarded : Obligations.LateAnswersAreDiscarded := by
  intro s t x late a rest hrst hp hstale hanswers hstep
  obtain rfl : s.applyReset = t := Host.Outcome.next.inj ((step_of_rst hrst).symm.trans hstep)
  have hnext : s.applyReset.answers.drop s.applyReset.stale = a :: rest := by
    rw [State.applyReset_drop_of_waiting hp, hstale, hanswers, List.drop_zero, List.tail_cons]
  exact ⟨_, State.takeAnswer_of_answer hnext, rfl, rfl, rfl⟩

end Sys2Proof.Machine
end
